-- ==== Sys2Proof/Word.lean ====
section
/-! DEFINITION. The word types of the model and their plainest arithmetic (00_scope.md rule R11: bits are numbered
from 0, bit 0 least significant; every value is unsigned). -/

namespace Sys2Proof

/-- One byte: a FrameBuffer byte, a status register, a response byte. -/
abbrev Byte := BitVec 8

/-- A stimulus word (30_encoding.md rule R61): exactly 32 bits. -/
abbrev StimWord := BitVec 32

/-- An output event word (30_encoding.md rule R72): 16 bits, `kind` in 15..12 and `arg` in 11..0. -/
abbrev EventWord := BitVec 16

/-- A level or flag as the one bit that a register view shows of it. -/
abbrev bit (b : Bool) : BitVec 1 := BitVec.ofBool b

end Sys2Proof
end

