-- ==== Sys2Proof/Syntax.lean ====
section
/-! DEFINITION. The fourteen operations of the block (30_encoding.md rules R62 and R70), one constructor for each row of
spec/opcode_table.json: ten operations that a stimulus word carries and the four micro-operations of DISPATCH. -/

namespace Sys2Proof

/-- ClockPlan.oscillatorSource (30_encoding.md rule R75): code 0 is Internal, code 1 is External. -/
inductive Osc where
  | internal
  | external
deriving DecidableEq, Repr

/-- The four agents of 00_scope.md rule R10; each operation belongs to exactly one. -/
inductive Agent where
  | host
  | timer
  | irq
  | platform
deriving DecidableEq, Repr

/-- The operations of the block, PID-OPS version 1 (00_scope.md rule R3). -/
inductive Instr where
  /-- `CONFIG osc, fsel` (R86): program a ClockPlan. -/
  | config (osc : Osc) (fsel : Byte)
  /-- `REQBUZZ freq, rpt` (R129): start or restart a buzzer pattern. -/
  | reqbuzz (freq : Byte) (rpt : Byte)
  /-- `FBWR addr, data` (R151): write one byte of the FrameBuffer. -/
  | fbwr (addr : BitVec 16) (data : Byte)
  /-- `FBRD addr` (R152): read one byte of the FrameBuffer. -/
  | fbrd (addr : BitVec 16)
  /-- `IMASK` (R153): mask interrupts. -/
  | imask
  /-- `IUNMASK` (R154): unmask interrupts. -/
  | iunmask
  /-- `RDSR n` (R155): read status register `n`. -/
  | rdsr (n : Byte)
  /-- `OSC n` (R92): `n` oscillator cycles. -/
  | osc (n : BitVec 16)
  /-- `DISPATCH` (R101): one invocation of the interrupt handler, one tick. -/
  | dispatch
  /-- `RESET` (R156): power-on reset. -/
  | reset
  /-- `SCHTICK` (R146): micro-operation 1 of DISPATCH, call the scheduler's tick entry point. -/
  | schtick
  /-- `BZADV` (R131): micro-operation 2 of DISPATCH, advance the buzzer sequencer by one tick. -/
  | bzadv
  /-- `ROWADV` (R113): micro-operation 3 of DISPATCH, drive one row. -/
  | rowadv
  /-- `IACK` (R105): micro-operation 4 of DISPATCH, acknowledge the interrupt. -/
  | iack
deriving DecidableEq, Repr

end Sys2Proof
end

