-- ==== Sys2Proof/WellFormed.lean ====
section
/-! DEFINITION. Which terms of `Instr` are operations of the block (30_encoding.md rules R63 to R70). The operand types
hold exactly the widths of the encoding, so the one check left is the operand of OSC. -/

namespace Sys2Proof

/-- `OSC n` needs `n` in 1..65535 (rule R68: `n = 0` is reserved); every other term is an operation. -/
def Instr.wf : Instr → Bool
  | .config _ _ => true
  | .reqbuzz _ _ => true
  | .fbwr _ _ => true
  | .fbrd _ => true
  | .imask => true
  | .iunmask => true
  | .rdsr _ => true
  | .osc n => n != 0#16
  | .dispatch => true
  | .reset => true
  | .schtick => true
  | .bzadv => true
  | .rowadv => true
  | .iack => true

/-- The operations that a stimulus stream may carry: those with an `op` code (rule R62). A micro-operation "cannot
appear in a stimulus stream" (rule R70). -/
def Instr.isStimulus : Instr → Bool
  | .config _ _ => true
  | .reqbuzz _ _ => true
  | .fbwr _ _ => true
  | .fbrd _ => true
  | .imask => true
  | .iunmask => true
  | .rdsr _ => true
  | .osc _ => true
  | .dispatch => true
  | .reset => true
  | .schtick => false
  | .bzadv => false
  | .rowadv => false
  | .iack => false

end Sys2Proof
end

