-- ==== Sys2Proof/Decode.lean ====
section
/-! DEFINITION. The decoder and the encoder of the stimulus word (format H, 30_encoding.md rules R61 to R69 and R79) and
of the micro-operation code (format M, rule R70). -/

namespace Sys2Proof

/-- Why a word is illegal (30_encoding.md rule R69). Whatever the reason, the run is refused with IllegalStimulus. Which
reason is named when several hold: DESIGN CHOICE, safe (notes/assumptions/12.md). -/
inductive IllegalWord where
  /-- `op` is 0x0 or 0xA..0xE. -/
  | reservedOp
  /-- `z` is not 0. -/
  | nonzeroZ
  /-- A field that must be 0 is not 0. -/
  | nonzeroField
  /-- The word is OSC with `n = 0`. -/
  | oscZero
  /-- A micro-operation code that names no micro-operation: 000 or 101..111 (rule R70). -/
  | reservedMicro
deriving DecidableEq, Repr

/-- What carries an operation: a stimulus word of format H or a micro-operation code of format M. -/
inductive Code where
  | stimulus (w : StimWord)
  | micro (c : BitVec 3)
deriving DecidableEq, Repr

/-- `op`, bits 31..28 (rule R61). -/
def opField (w : StimWord) : BitVec 4 := w.extractLsb' 28 4

/-- `z`, bits 27..24, must be 0000 (rule R61). -/
def zField (w : StimWord) : BitVec 4 := w.extractLsb' 24 4

/-- Operand A, bits 23..8 (rule R61). -/
def aField (w : StimWord) : BitVec 16 := w.extractLsb' 8 16

/-- Operand B, bits 7..0 (rule R61). -/
def bField (w : StimWord) : Byte := w.extractLsb' 0 8

/-- The low byte `a[7:0]` of operand A: `freq` of REQBUZZ (rule R64) and `n` of RDSR (rule R67). -/
def aLow (w : StimWord) : Byte := w.extractLsb' 8 8

/-- The high byte `a[15:8]` of operand A, which REQBUZZ and RDSR require to be 0 (rules R64, R67). -/
def aHigh (w : StimWord) : Byte := w.extractLsb' 16 8

/-- `osc`, bit 8 (rule R63). -/
def oscField (w : StimWord) : Osc := if w.getLsbD 8 then .external else .internal

/-- `a[15:1]`, bits 23..9, which CONFIG requires to be 0 (rule R63). -/
def configZero (w : StimWord) : BitVec 15 := w.extractLsb' 9 15

/-- The operation `i` where the fields that must be 0 are 0, and the illegal word otherwise (rule R69). -/
def ifZero (zero : Bool) (i : Instr) : Except IllegalWord Instr :=
  if zero then .ok i else .error .nonzeroField

/-- The decoder of a stimulus word (rule R79): look `op` up in rule R62, check `z` and the fields that must be 0, take
the operands as unsigned fields. Total: every 32-bit word is an operation or is rejected by name. -/
def decodeStimulus (w : StimWord) : Except IllegalWord Instr :=
  if zField w ≠ 0#4 then .error .nonzeroZ
  else
    match (opField w).toNat with
    | 0x1 => ifZero (configZero w == 0#15) (.config (oscField w) (bField w))
    | 0x2 => ifZero (aHigh w == 0#8) (.reqbuzz (aLow w) (bField w))
    | 0x3 => .ok (.fbwr (aField w) (bField w))
    | 0x4 => ifZero (bField w == 0#8) (.fbrd (aField w))
    | 0x5 => ifZero (aField w == 0#16 && bField w == 0#8) .imask
    | 0x6 => ifZero (aField w == 0#16 && bField w == 0#8) .iunmask
    | 0x7 => ifZero (aHigh w == 0#8 && bField w == 0#8) (.rdsr (aLow w))
    | 0x8 =>
      if bField w ≠ 0#8 then .error .nonzeroField
      else if aField w = 0#16 then .error .oscZero
      else .ok (.osc (aField w))
    | 0x9 => ifZero (aField w == 0#16 && bField w == 0#8) .dispatch
    | 0xF => ifZero (aField w == 0#16 && bField w == 0#8) .reset
    | _ => .error .reservedOp

/-- The micro-operation a 3-bit code names (rule R70). Code 000 means "not in the handler"; 101, 110 and 111 are
reserved and never occur. -/
def decodeMicro (c : BitVec 3) : Except IllegalWord Instr :=
  match c.toNat with
  | 1 => .ok .schtick
  | 2 => .ok .bzadv
  | 3 => .ok .rowadv
  | 4 => .ok .iack
  | _ => .error .reservedMicro

/-- The operation a code of either format carries. -/
def decode : Code → Except IllegalWord Instr
  | .stimulus w => decodeStimulus w
  | .micro c => decodeMicro c

/-- `op`, `z = 0`, operand A and operand B put together into a stimulus word (rule R61). -/
def wordH (op : BitVec 4) (a : BitVec 16) (b : Byte) : StimWord := op ++ (0#4) ++ a ++ b

/-- The code of an oscillator choice (30_encoding.md rule R75). -/
def Osc.code : Osc → BitVec 1
  | .internal => 0#1
  | .external => 1#1

/-- The encoder: the word or micro-operation code of an operation (rules R62 to R70). -/
def encode : Instr → Code
  | .config osc fsel => .stimulus (wordH 0x1#4 ((0#15) ++ osc.code) fsel)
  | .reqbuzz freq rpt => .stimulus (wordH 0x2#4 ((0#8) ++ freq) rpt)
  | .fbwr addr data => .stimulus (wordH 0x3#4 addr data)
  | .fbrd addr => .stimulus (wordH 0x4#4 addr 0#8)
  | .imask => .stimulus (wordH 0x5#4 0#16 0#8)
  | .iunmask => .stimulus (wordH 0x6#4 0#16 0#8)
  | .rdsr n => .stimulus (wordH 0x7#4 ((0#8) ++ n) 0#8)
  | .osc n => .stimulus (wordH 0x8#4 n 0#8)
  | .dispatch => .stimulus (wordH 0x9#4 0#16 0#8)
  | .reset => .stimulus (wordH 0xF#4 0#16 0#8)
  | .schtick => .micro 1#3
  | .bzadv => .micro 2#3
  | .rowadv => .micro 3#3
  | .iack => .micro 4#3

/-- One row of the opcode table of the stimulus words: a word `w` selects it with `w &&& mask = pattern` (rule R79). -/
structure OpcodeRow where
  mask : StimWord
  pattern : StimWord
deriving DecidableEq, Repr

/-- The ten stimulus rows of spec/opcode_table.json, in its order: CONFIG, REQBUZZ, FBWR, FBRD, IMASK, IUNMASK, RDSR,
OSC, DISPATCH, RESET. -/
def opcodeRows : List OpcodeRow :=
  [ ⟨0xFFFFFE00, 0x10000000⟩,
    ⟨0xFFFF0000, 0x20000000⟩,
    ⟨0xFF000000, 0x30000000⟩,
    ⟨0xFF0000FF, 0x40000000⟩,
    ⟨0xFFFFFFFF, 0x50000000⟩,
    ⟨0xFFFFFFFF, 0x60000000⟩,
    ⟨0xFFFF00FF, 0x70000000⟩,
    ⟨0xFF0000FF, 0x80000000⟩,
    ⟨0xFFFFFFFF, 0x90000000⟩,
    ⟨0xFFFFFFFF, 0xF0000000⟩ ]

/-- A word selects a row of the table (rule R79). -/
def OpcodeRow.selects (r : OpcodeRow) (w : StimWord) : Bool := (w &&& r.mask) == r.pattern

/-- The code that `nbits` bits `w` of an opcode-table row are: a row of at most one byte is a micro-operation code (3
bits, rule R70), a longer one a stimulus word (32 bits, rule R61), the bits above `nbits` being 0. A stimulus word
whose bits above the first byte are all 0 has the reserved `op` 0x0, so the two do not meet. DESIGN CHOICE, safe
(notes/assumptions/13.md). -/
def codeOfTableWord (nbits w : Nat) : Option Code :=
  if nbits ≤ 8 then (if w < 8 then some (.micro (BitVec.ofNat 3 w)) else none)
  else (if w < 2 ^ 32 then some (.stimulus (BitVec.ofNat 32 w)) else none)

/-- The instruction the decoder reads from an opcode-table row's bits. -/
def decodeTableWord (nbits w : Nat) : Option Instr :=
  match codeOfTableWord nbits w with
  | some c => (decode c).toOption
  | none => none

end Sys2Proof
end

