-- ==== Sys2Proof/Config.lean ====
section
/-! DEFINITION. The implementation parameters of 00_scope.md rule R7. The OPEN ones are fields of `RawParams`, which a
model instance is given; the three buzzer durations are fixed by the spec. -/

namespace Sys2Proof

/-- The parameters that rule R7 leaves OPEN, unchecked. "None of the OPEN values is in the source."
A divisor that is not given is 1, "default 1 for all six pairs" (92_eei_decisions.md D4); the others have no default. -/
structure RawParams where
  /-- `SIZE_X`: number of columns, the width in bits of one FrameBuffer row. -/
  sizeX : Nat
  /-- `MAX_Y`: number of physical rows, the length of each FrameBuffer plane. -/
  maxY : Nat
  /-- `F_INT_HZ`: nominal frequency of the Internal oscillator. -/
  fIntHz : Nat
  /-- `F_EXT_HZ`: nominal frequency of the External oscillator. -/
  fExtHz : Nat
  /-- `PSC_DIV(Internal, 1 kHz)`. -/
  pscInt1k : Nat := 1
  /-- `PSC_DIV(Internal, 2 kHz)`. -/
  pscInt2k : Nat := 1
  /-- `PSC_DIV(Internal, 4 kHz)`. -/
  pscInt4k : Nat := 1
  /-- `PSC_DIV(External, 1 kHz)`. -/
  pscExt1k : Nat := 1
  /-- `PSC_DIV(External, 2 kHz)`. -/
  pscExt2k : Nat := 1
  /-- `PSC_DIV(External, 4 kHz)`. -/
  pscExt4k : Nat := 1
deriving DecidableEq, Repr

/-- The example set `PS_TINY` of 00_scope.md rule R9 ("examples only and carry no authority"). -/
def RawParams.psTiny : RawParams :=
  { sizeX := 4, maxY := 2, fIntHz := 16000000, fExtHz := 24000000,
    pscInt1k := 1, pscInt2k := 1, pscInt4k := 1, pscExt1k := 1, pscExt2k := 1, pscExt4k := 1 }

/-- The example set `PS_BYTE` of 00_scope.md rule R9. -/
def RawParams.psByte : RawParams :=
  { sizeX := 12, maxY := 3, fIntHz := 16000000, fExtHz := 24000000,
    pscInt1k := 16, pscInt2k := 16, pscInt4k := 16, pscExt1k := 16, pscExt2k := 16, pscExt4k := 16 }

/-- `T_ON`: ticks in Sounding, fixed (rule R7). -/
def tOn : Nat := 200

/-- `T_SHORT`: ticks in ShortGap, fixed (rule R7). -/
def tShort : Nat := 200

/-- `T_BURST`: ticks in BurstGap, fixed (rule R7). -/
def tBurst : Nat := 2000

end Sys2Proof
end

