-- ==== Sys2Proof/Machine/Params.lean ====
section
/-! DEFINITION. The derived parameters of 00_scope.md rule R7, the constraints of rule R8, and `Params`: a parameter set
together with the proof that it meets them. A set that breaks one "is not a configuration of this hardware", so no
`Params` of it exists and no state of the machine carries it. -/

namespace Sys2Proof.Machine

/-- `RB = ceil(SIZE_X / 8)`: bytes in one FrameBuffer row (rule R7). -/
def rowBytes (p : RawParams) : Nat := (p.sizeX + 7) / 8

/-- `MAX_Y * RB`: bytes in one plane (20_memory.md rule R50). -/
def planeBytes (p : RawParams) : Nat := p.maxY * rowBytes p

/-- `FB_BYTES = 3 * MAX_Y * RB`: size of the FrameBuffer address space (rule R7). -/
def fbBytes (p : RawParams) : Nat := 3 * planeBytes p

/-- The nominal frequency of an oscillator in hertz (rule R86: `f_osc`). -/
def oscHz (p : RawParams) : Osc → Nat
  | .internal => p.fIntHz
  | .external => p.fExtHz

/-- `f_t(fsel) = 1000 * 2^fsel`: the target frequency in hertz (40_timer_reload_configurator.md rule R87). -/
def targetHz (fsel : Nat) : Nat := 1000 * 2 ^ fsel

/-- `PSC_DIV(osc, fsel)` for the three supported frequencies `fsel` = 0, 1, 2 (rule R7). -/
def pscDiv (p : RawParams) : Osc → Nat → Nat
  | .internal, 0 => p.pscInt1k
  | .internal, 1 => p.pscInt2k
  | .internal, _ => p.pscInt4k
  | .external, 0 => p.pscExt1k
  | .external, 1 => p.pscExt2k
  | .external, _ => p.pscExt4k

/-- Counter units in one period, `floor(f_osc / (div * f_t))` (rule R8 item 3, rule R88). -/
def periodUnits (p : RawParams) (osc : Osc) (fsel : Nat) : Nat :=
  oscHz p osc / (pscDiv p osc fsel * targetHz fsel)

/-- One (oscillator, frequency) pair meets rule R7 (divisor in 1..255) and rule R8 item 3 (the reload value fits 16
bits). -/
def pairOk (p : RawParams) (osc : Osc) (fsel : Nat) : Bool :=
  decide (1 ≤ pscDiv p osc fsel) && decide (pscDiv p osc fsel ≤ 255) &&
  decide (1 ≤ periodUnits p osc fsel) && decide (periodUnits p osc fsel ≤ 65536)

/-- The constraints of 00_scope.md rule R8, items 1 to 3. That item 2's bound and its exact condition both hold:
DEDUCED, safe (notes/assumptions/9.md). -/
def paramsOk (p : RawParams) : Bool :=
  decide (1 ≤ p.maxY) && decide (p.maxY ≤ 128) &&
  decide (1 ≤ p.sizeX) && decide (p.sizeX ≤ 1360) && decide (fbBytes p ≤ 65536) &&
  pairOk p .internal 0 && pairOk p .internal 1 && pairOk p .internal 2 &&
  pairOk p .external 0 && pairOk p .external 1 && pairOk p .external 2

end Sys2Proof.Machine

namespace Sys2Proof

/-- A parameter set that meets the constraints of rule R8. -/
structure Params extends RawParams where
  ok : Machine.paramsOk toRawParams = true
deriving DecidableEq, Repr

/-- `PS_TINY` as a checked parameter set. -/
def Params.psTiny : Params := { RawParams.psTiny with ok := by decide }

/-- `PS_BYTE` as a checked parameter set. -/
def Params.psByte : Params := { RawParams.psByte with ok := by decide }

end Sys2Proof
end

