-- ==== Sys2Proof/Machine/State.lean ====
section
/-! DEFINITION. The state of the block: every register of 10_state.md rule R13, and four fields of the model's own
(`params`, `resp`, `stim`, and the grouping structures). All of it is plain data. -/

namespace Sys2Proof.Machine

/-- BuzzerState.phase (10_state.md rule R25, 2 bits); all four codes are legal. -/
inductive BzPhase where
  | idle
  | sounding
  | shortGap
  | burstGap
deriving DecidableEq, Repr

/-- `dstep` (10_state.md rule R34, 3 bits): the dispatcher step in progress. Codes 5..7 never occur and are
unrepresentable (93_implementation_defined.md U9). DEDUCED, safe (notes/assumptions/11.md). -/
inductive DStep where
  | outside
  | schtick
  | bzadv
  | rowadv
  | iack
deriving DecidableEq, Repr

/-- An output event (30_encoding.md rule R72). -/
inductive Event where
  /-- One call of the external scheduler's tick entry point. -/
  | sched
  /-- The buzzer output becomes (`on`, `freq`). -/
  | bz (on : Bool) (freq : Byte)
  /-- The three data lines take these levels. -/
  | sd (r g b : Bool)
  /-- The shift clock line takes this level. -/
  | shcp (level : Bool)
  /-- The latch line takes this level. -/
  | stcp (level : Bool)
  /-- The row-select byte becomes this. -/
  | rowsel (x : Byte)
  /-- The interrupt-pending condition was cleared. -/
  | iack
deriving DecidableEq, Repr

/-- The ClockPlan registers (10_state.md rules R14 to R17). -/
structure ClockPlan where
  /-- `clk_osc`, 1 bit. -/
  clkOsc : Osc
  /-- `clk_fsel`, 2 bits; the value 3 is never stored. -/
  clkFsel : BitVec 2
  /-- `tim_psc`, 8 bits: the prescaler divisor itself. -/
  timPsc : BitVec 8
  /-- `tim_arrh`, 8 bits: reloadHigh. -/
  timArrh : BitVec 8
  /-- `tim_arrl`, 8 bits: reloadLow. -/
  timArrl : BitVec 8
deriving DecidableEq, Repr

/-- The registers that OSC writes (10_state.md rules R19 to R21, R35). -/
structure TimerRegs where
  /-- `tim_cnt`, 16 bits. -/
  timCnt : BitVec 16
  /-- `tim_pcnt`, 8 bits: the prescaler's phase. -/
  timPcnt : BitVec 8
  /-- `irq_pending`, 1 bit. -/
  irqPending : Bool
  /-- `tick_lost` (ghost), 1 bit, sticky. -/
  tickLost : Bool
deriving DecidableEq, Repr

/-- BuzzerState (10_state.md rules R25 to R30). -/
structure BuzzerState where
  /-- `bz_phase`, 2 bits. -/
  phase : BzPhase
  /-- `bz_elapsed`, 16 bits. -/
  elapsed : BitVec 16
  /-- `bz_rpt_cnt`, 8 bits. -/
  rptCnt : BitVec 8
  /-- `bz_rpt_tgt`, 8 bits. -/
  rptTgt : BitVec 8
  /-- `bz_dbl`, 1 bit. -/
  dbl : Bool
  /-- `bz_freq`, 8 bits. -/
  freq : BitVec 8
deriving DecidableEq, Repr

/-- The levels of the output lines (10_state.md rules R31 to R33). -/
structure OutputLines where
  /-- `sd_r`. -/
  sdR : Bool
  /-- `sd_g`. -/
  sdG : Bool
  /-- `sd_b`. -/
  sdB : Bool
  /-- `shcp`, the shared shift clock. -/
  shcp : Bool
  /-- `stcp`, the latch line. -/
  stcp : Bool
  /-- `row_sel`, 8 bits. -/
  rowSel : BitVec 8
  /-- `bz_on`, the tone output. -/
  bzOn : Bool
deriving DecidableEq, Repr

/-- The bytes of an address space as address and byte pairs, addresses strictly rising, no byte 0 listed: an unlisted
address reads as 0, the FrameBuffer's reset content (10_state.md rule R23). DEDUCED, safe (notes/assumptions/10.md). -/
abbrev Memory := List Host.Cell

/-- The whole state. -/
structure State where
  /-- MODEL'S OWN: the implementation parameters of this instance (00_scope.md rule R7), never written. DESIGN CHOICE,
  safe (notes/assumptions/2.md). -/
  params : Params
  plan : ClockPlan
  /-- `plan_valid` (R18). -/
  planValid : Bool
  timer : TimerRegs
  /-- `int_mask` (R22): true = masked. -/
  intMask : Bool
  /-- `FB` (R23), byte by byte through the map of 20_memory.md rule R43. -/
  fb : Memory
  /-- `row_cur` (R24), 8 bits. -/
  rowCur : BitVec 8
  buzzer : BuzzerState
  lines : OutputLines
  /-- `dstep` (R34). -/
  dstep : DStep
  /-- `n_disp` (ghost, R35): DISPATCH operations since RESET. -/
  nDisp : Nat
  /-- `out_trace` (ghost, R36): every output event since RESET, oldest first. -/
  outTrace : List Event
  /-- MODEL'S OWN: the response the last HOST operation gave (30_encoding.md rule R71), empty if it gave none.
  DESIGN CHOICE, unsafe for a reader of a stale response (notes/assumptions/6.md). -/
  resp : List Byte
  /-- MODEL'S OWN: the stimulus words not yet performed, the next one first (30_encoding.md rule R61). DESIGN
  CHOICE, safe (notes/assumptions/5.md). -/
  stim : List StimWord
deriving DecidableEq, Repr

/-- Why the machine stops with a fault: never. Every error of the block is a response of a HOST operation that then
completes (60_exceptions.md rule R166), no operation can trap, and an overrun is a lost tick after which the run goes
on (rules R173, R194). No constructor: that no step faults holds by the type. DEDUCED, safe (notes/assumptions/16.md).
-/
inductive Fault where
deriving DecidableEq, Repr

/-- Why a stimulus has no meaning (60_exceptions.md rule R170: a refusal is not a behaviour of the hardware). -/
inductive Refusal where
  /-- Raised by no operation of this model: every operation has its meaning. Safe. -/
  | notModelled (mnemonic : String)
  /-- `refuse(IllegalStimulus)` (30_encoding.md rule R69), raised by a step whose word is illegal and by `OSC 0`. Safe:
  the hardware has no such operation. -/
  | illegalStimulus
  /-- `refuse(NotEnabled)` (30_encoding.md rule R80), raised by an operation whose enabling condition is false. Safe:
  "the hardware cannot do that step in that state". -/
  | notEnabled
  /-- Raised by a step with no stimulus word left: the run has ended (70_reset_and_hazards.md rule R210). Safe: nothing
  is claimed of what the chip does after it. DESIGN CHOICE (notes/assumptions/3.md). -/
  | endOfStimulus
  /-- Raised when a model instance is asked for with a parameter set that breaks 00_scope.md rule R8. Safe: it is not a
  configuration of this hardware (notes/assumptions/2.md). -/
  | badParameters
deriving DecidableEq, Repr

/-- What a step or a meaning answers. -/
abbrev Answer := Host.Outcome State Fault Refusal

/-- Every register of rule R13 at its reset value (10_state.md rule R39), for the parameter set `p`; no response, no
stimulus. -/
def State.resetWith (p : Params) : State :=
  { params := p
    plan := { clkOsc := .internal, clkFsel := 0#2, timPsc := 0#8, timArrh := 0#8, timArrl := 0#8 }
    planValid := false
    timer := { timCnt := 0#16, timPcnt := 0#8, irqPending := false, tickLost := false }
    intMask := true
    fb := []
    rowCur := 0#8
    buzzer := { phase := .idle, elapsed := 0#16, rptCnt := 0#8, rptTgt := 0#8, dbl := false, freq := 0#8 }
    lines := { sdR := true, sdG := true, sdB := true, shcp := false, stcp := false, rowSel := 0x00#8, bzOn := false }
    dstep := .outside
    nDisp := 0
    outTrace := []
    resp := []
    stim := [] }

/-- The machine right after RESET (rule R39). The parameters are OPEN in the spec, and this fixed name needs a set:
it is the example set PS_TINY. DESIGN CHOICE, unsafe (notes/assumptions/1.md); every other statement is about
`State.resetWith p` or about every state. -/
def State.reset : State := State.resetWith Params.psTiny

end Sys2Proof.Machine
end

