-- ==== Sys2Proof/Machine/Ops.lean ====
section
/-! DEFINITION. The named operations over memory, output lines, responses, the stimulus stream and the interrupt: the
primitives of 00_scope.md rule R11, the FrameBuffer space of 20_memory.md, and interrupt entry and return
(60_exceptions.md rules R177, R180). -/

namespace Sys2Proof.Machine

/-! ### The canonical byte store -/

/-- The byte at an address; an unlisted address reads as 0 (10_state.md rule R23). -/
def Memory.read : Memory → Nat → Byte
  | [], _ => 0#8
  | (a, v) :: m, x => if x = a then v else Memory.read m x

/-- Put a cell in its place among rising addresses. -/
def Memory.place (c : Host.Cell) : Memory → Memory
  | [] => [c]
  | d :: m => if c.1 < d.1 then c :: d :: m else d :: Memory.place c m

/-- Write one byte: whatever was listed for the address goes, and a byte other than 0 is listed. -/
def Memory.write (m : Memory) (x : Nat) (v : Byte) : Memory :=
  let rest := m.filter (fun c => c.1 != x)
  if v = 0#8 then rest else Memory.place (x, v) rest

/-- The canonical form: addresses strictly rising, no listed byte equal to what an unlisted address reads as. -/
abbrev Memory.wf (m : Memory) : Prop := m.Pairwise (fun c d => c.1 < d.1) ∧ ∀ c ∈ m, c.2 ≠ 0#8

/-! ### The FrameBuffer space (20_memory.md) -/

/-- `addr(p, y, k) = p * (MAX_Y * RB) + y * RB + k` (20_memory.md rule R43). -/
def fbAddr (p : RawParams) (plane y k : Nat) : Nat := plane * planeBytes p + y * rowBytes p + k

/-- The bits of the byte at an address that are columns; the others are padding (20_memory.md rules R43, R46): of byte
`k = a mod RB` of a row, bit `j` is column `8*k + j` where that is below `SIZE_X`. -/
def columnMask (p : RawParams) (a : Nat) : Byte :=
  BitVec.ofNat 8 (2 ^ min 8 (p.sizeX - 8 * (a % rowBytes p)) - 1)

/-- `MemRead(a, 1)` (20_memory.md rule R44): padding bits read as 0. Defined for `a < FB_BYTES`; its callers raise
BadAddress first. -/
def memRead (s : State) (a : Nat) : Byte := Memory.read s.fb a &&& columnMask s.params.toRawParams a

/-- `MemWrite(a, 1, v)` (20_memory.md rule R44): the column bits of the byte take those of `v`; writes to padding bits
are ignored (rule R46). -/
def memWrite (a : Nat) (v : Byte) (s : State) : State :=
  { s with fb := Memory.write s.fb a (v &&& columnMask s.params.toRawParams a) }

/-- `FB[plane][y][c]` (20_memory.md rule R42) through the byte map of rule R43: byte `c / 8` of the row, bit `c mod
8`. -/
def pixel (s : State) (plane y c : Nat) : Bool :=
  (memRead s (fbAddr s.params.toRawParams plane y (c / 8))).getLsbD (c % 8)

/-! ### Output events -/

/-- The word of an output event (30_encoding.md rule R72). -/
def Event.word : Event → EventWord
  | .sched => 0x1000#16
  | .bz on freq => (0x2#4) ++ (0#3) ++ bit on ++ freq
  | .sd r g b => (0x3#4) ++ (0#9) ++ bit b ++ bit g ++ bit r
  | .shcp v => (0x4#4) ++ (0#11) ++ bit v
  | .stcp v => (0x5#4) ++ (0#11) ++ bit v
  | .rowsel x => (0x6#4) ++ (0#4) ++ x
  | .iack => 0x7000#16

/-- The level registers after an event: an event that names an output line also writes it (rules R11, R72). -/
def OutputLines.apply (l : OutputLines) : Event → OutputLines
  | .sched => l
  | .bz on _ => { l with bzOn := on }
  | .sd r g b => { l with sdR := r, sdG := g, sdB := b }
  | .shcp v => { l with shcp := v }
  | .stcp v => { l with stcp := v }
  | .rowsel x => { l with rowSel := x }
  | .iack => l

/-- `emit E` (00_scope.md rule R11): append the event to `out_trace` and write the level register of its line. -/
def emit (e : Event) (s : State) : State :=
  { s with lines := s.lines.apply e, outTrace := s.outTrace ++ [e] }

/-- Emit a list of events, the first one first. -/
def emitAll : List Event → State → State
  | [], s => s
  | e :: es, s => emitAll es (emit e s)

/-! ### Responses (30_encoding.md rule R71) -/

/-- Status code 0, OK. -/
def respOK : Byte := 0#8

/-- Status code 1, UnsupportedFrequency. -/
def respUnsupportedFrequency : Byte := 1#8

/-- Status code 2, BadAddress. -/
def respBadAddress : Byte := 2#8

/-- Status code 3, BadRegister. -/
def respBadRegister : Byte := 3#8

/-- `respond v` (00_scope.md rule R11), the whole response of the operation; the empty list for an operation that gives
none. -/
def respond (r : List Byte) (s : State) : State := { s with resp := r }

/-! ### The dispatcher's sequence, interrupt entry and return -/

/-- The code of `dstep` (30_encoding.md rule R70). -/
def DStep.code : DStep → BitVec 3
  | .outside => 0#3
  | .schtick => 1#3
  | .bzadv => 2#3
  | .rowadv => 3#3
  | .iack => 4#3

/-- The micro-operation that runs while `dstep` has this value (rule R70): its code is the value. -/
def DStep.micro (d : DStep) : Option Instr := (decodeMicro d.code).toOption

/-- The value of `dstep` while a micro-operation runs (rule R70); `outside` for the other operations. -/
def DStep.ofInstr : Instr → DStep
  | .config _ _ => .outside
  | .reqbuzz _ _ => .outside
  | .fbwr _ _ => .outside
  | .fbrd _ => .outside
  | .imask => .outside
  | .iunmask => .outside
  | .rdsr _ => .outside
  | .osc _ => .outside
  | .dispatch => .outside
  | .reset => .outside
  | .schtick => .schtick
  | .bzadv => .bzadv
  | .rowadv => .rowadv
  | .iack => .iack

/-- `dstep <- d` (41_periodic_interrupt_dispatcher.md rule R101). -/
def setDstep (d : DStep) (s : State) : State := { s with dstep := d }

/-- TAKING THE INTERRUPT (60_exceptions.md rule R177): "of the block's state, entry changes only `dstep` (0 to 1)". It
saves nothing, does not change `int_mask` and does not clear `irq_pending`. -/
def enterHandler (s : State) : State := setDstep .schtick s

/-- RETURN FROM THE INTERRUPT (60_exceptions.md rule R180): `dstep` is 0 again; the ghost `n_disp` counts the DISPATCH
(41_periodic_interrupt_dispatcher.md rules R101, R108). -/
def leaveHandler (s : State) : State := { setDstep .outside s with nDisp := s.nDisp + 1 }

/-- What follows the micro-operation of a dispatcher step: `dstep` "advances by exactly one per step", and after the
last step the handler returns (10_state.md rule R34). -/
def nextDstep : DStep → State → State
  | .outside, s => s
  | .schtick, s => setDstep .bzadv s
  | .bzadv, s => setDstep .rowadv s
  | .rowadv, s => setDstep .iack s
  | .iack, s => leaveHandler s

/-- Go on from an answer with an operation on its next state. -/
def Answer.thenDo (f : State → State) : Answer → Answer
  | .next s => .next (f s)
  | .fault r => .fault r
  | .refused r => .refused r

/-- Go on from an answer with an operation that may itself stop. -/
def Answer.andThen (f : State → Answer) : Answer → Answer
  | .next s => f s
  | .fault r => .fault r
  | .refused r => .refused r

/-! ### The stimulus stream (30_encoding.md rule R61) -/

/-- The next stimulus word and the state that has taken it from the stream; none when the stream has ended. -/
def fetch (s : State) : Option (StimWord × State) :=
  match s.stim with
  | [] => none
  | w :: rest => some (w, { s with stim := rest })

/-- Put a stimulus word before the words not yet performed; the handler is not running. -/
def pushWord (w : StimWord) (s : State) : State := { s with stim := w :: s.stim, dstep := .outside }

/-- Place a code where the next step takes it from: a stimulus word at the head of the stream, a micro-operation as the
dispatcher step in progress. A code that names no micro-operation is placed as a word, which is illegal. -/
def placeCode (c : Code) (s : State) : State :=
  match c with
  | .stimulus w => pushWord w s
  | .micro m =>
    match decodeMicro m with
    | .ok i => setDstep (DStep.ofInstr i) s
    | .error _ => pushWord (m.setWidth 32) s

/-- A model instance for a parameter set (00_scope.md rule R8): refused when the set breaks a constraint, otherwise the
state right after RESET. -/
def instantiate (p : RawParams) : Answer :=
  if h : paramsOk p = true then .next (State.resetWith { toRawParams := p, ok := h }) else .refused .badParameters

end Sys2Proof.Machine
end

