-- ==== Sys2Proof/Machine/Operands.lean ====
section
/-! DEFINITION. What the operands of the operations stand for: the reload value of a frequency request
(40_timer_reload_configurator.md rules R86 to R88), the place of a FrameBuffer address (20_memory.md rule R43), and the
status register of a number with its contents (10_state.md rule R37). -/

namespace Sys2Proof.Machine

/-! ### CONFIG -/

/-- `fsel` is one of 0, 1, 2; every other value asks for an unsupported frequency (30_encoding.md rule R63). -/
def supportedFsel (fsel : Byte) : Bool := decide (fsel.toNat ≤ 2)

/-- `reload = floor(f_osc / (div * f_t)) - 1`, computed on naturals (rule R88). -/
def reloadValue (p : RawParams) (osc : Osc) (fsel : Nat) : Nat := periodUnits p osc fsel - 1

/-- The five ClockPlan registers a successful CONFIG writes (rule R86, 30_encoding.md rule R76). -/
def planFor (p : RawParams) (osc : Osc) (fsel : Byte) : ClockPlan :=
  let reload := BitVec.ofNat 16 (reloadValue p osc fsel.toNat)
  { clkOsc := osc
    clkFsel := fsel.extractLsb' 0 2
    timPsc := BitVec.ofNat 8 (pscDiv p osc fsel.toNat)
    timArrh := reload.extractLsb' 8 8
    timArrl := reload.extractLsb' 0 8 }

/-- `reload = tim_arrh * 256 + tim_arrl` (10_state.md rule R17). -/
def reloadOf (c : ClockPlan) : BitVec 16 := c.timArrh ++ c.timArrl

/-! ### FBWR and FBRD -/

/-- `addr < FB_BYTES`: the address is in the FrameBuffer region (20_memory.md rule R50). -/
def inFrameBuffer (p : RawParams) (addr : BitVec 16) : Bool := decide (addr.toNat < fbBytes p)

/-- `p = floor(a / (MAX_Y * RB))` (20_memory.md rule R43). -/
def planeOf (p : RawParams) (a : Nat) : Nat := a / planeBytes p

/-- `y = floor((a mod (MAX_Y * RB)) / RB)` (20_memory.md rule R43). -/
def rowOf (p : RawParams) (a : Nat) : Nat := (a % planeBytes p) / rowBytes p

/-- `k = a mod RB` (20_memory.md rule R43). -/
def byteOf (p : RawParams) (a : Nat) : Nat := a % rowBytes p

/-! ### RDSR -/

/-- The code of a buzzer phase (30_encoding.md rule R75). -/
def BzPhase.code : BzPhase → BitVec 2
  | .idle => 0#2
  | .sounding => 1#2
  | .shortGap => 2#2
  | .burstGap => 3#2

/-- The status registers (10_state.md rule R37). -/
inductive StatusReg where
  | sr
  | ckcfg
  | psc
  | arrh
  | arrl
  | rowcur
  | bzst
  | bzelh
  | bzell
  | bzcnt
  | bztgt
  | bzfreq
  | rowsel
  | lines
deriving DecidableEq, Repr

/-- The status register of a number; none for the reserved numbers 0x0E..0xFF (10_state.md rule R37). -/
def statusReg (n : Byte) : Option StatusReg :=
  match n.toNat with
  | 0x00 => some .sr
  | 0x01 => some .ckcfg
  | 0x02 => some .psc
  | 0x03 => some .arrh
  | 0x04 => some .arrl
  | 0x05 => some .rowcur
  | 0x06 => some .bzst
  | 0x07 => some .bzelh
  | 0x08 => some .bzell
  | 0x09 => some .bzcnt
  | 0x0A => some .bztgt
  | 0x0B => some .bzfreq
  | 0x0C => some .rowsel
  | 0x0D => some .lines
  | _ => none

/-- The contents of a status register, a view of the state's own bits (10_state.md rule R37); reserved bits read 0. -/
def readStatus (s : State) : StatusReg → Byte
  | .sr => (0#5) ++ bit s.planValid ++ bit s.intMask ++ bit s.timer.irqPending
  | .ckcfg => (0#5) ++ s.plan.clkFsel ++ s.plan.clkOsc.code
  | .psc => s.plan.timPsc
  | .arrh => s.plan.timArrh
  | .arrl => s.plan.timArrl
  | .rowcur => s.rowCur
  | .bzst => (0#4) ++ bit s.lines.bzOn ++ bit s.buzzer.dbl ++ s.buzzer.phase.code
  | .bzelh => s.buzzer.elapsed.extractLsb' 8 8
  | .bzell => s.buzzer.elapsed.extractLsb' 0 8
  | .bzcnt => s.buzzer.rptCnt
  | .bztgt => s.buzzer.rptTgt
  | .bzfreq => s.buzzer.freq
  | .rowsel => s.lines.rowSel
  | .lines =>
    (0#3) ++ bit s.lines.stcp ++ bit s.lines.shcp ++ bit s.lines.sdB ++ bit s.lines.sdG ++ bit s.lines.sdR

end Sys2Proof.Machine
end

