-- ==== Sys2Proof/Machine/Flags.lean ====
section
/-! DEFINITION. The flags `irq_pending` and `int_mask` as conditions: which operation is enabled (30_encoding.md rule
R80) and what an overflow does to the flags (40_timer_reload_configurator.md rule R93). The block has no arithmetic
condition codes (10_state.md rule R38). -/

namespace Sys2Proof.Machine

/-- A deliverable interrupt is waiting: `irq_pending = 1` and `int_mask = 0` (rules R80, R102). -/
def deliverable (s : State) : Bool := s.timer.irqPending && !s.intMask

/-- The agent that performs an operation (00_scope.md rule R10). -/
def agentOf : Instr → Agent
  | .config _ _ => .host
  | .reqbuzz _ _ => .host
  | .fbwr _ _ => .host
  | .fbrd _ => .host
  | .imask => .host
  | .iunmask => .host
  | .rdsr _ => .host
  | .osc _ => .timer
  | .dispatch => .irq
  | .reset => .platform
  | .schtick => .irq
  | .bzadv => .irq
  | .rowadv => .irq
  | .iack => .irq

/-- The enabling conditions (30_encoding.md rule R80): RESET and OSC always; DISPATCH when a deliverable interrupt
waits; every HOST operation when none waits. A micro-operation "runs only as part of DISPATCH, in the order of its
code" (rule R70): while `dstep` has that code. DEDUCED, safe (notes/assumptions/17.md). -/
def enabled (i : Instr) (s : State) : Bool :=
  match agentOf i with
  | .host => !deliverable s
  | .timer => true
  | .platform => true
  | .irq =>
    match DStep.ofInstr i with
    | .outside => deliverable s
    | .schtick => s.dstep == .schtick
    | .bzadv => s.dstep == .bzadv
    | .rowadv => s.dstep == .rowadv
    | .iack => s.dstep == .iack

/-- Perform an enabled operation; one that is not enabled is `refuse(NotEnabled)` (rule R80). -/
def perform (i : Instr) (op : State → State) (s : State) : Answer :=
  if enabled i s then .next (op s) else .refused .notEnabled

/-- `Overflow()` (rule R93): `irq_pending` is set; if it was set already the tick is lost (60_exceptions.md rule
R173). -/
def overflow (t : TimerRegs) : TimerRegs :=
  { t with tickLost := t.tickLost || t.irqPending, irqPending := true }

end Sys2Proof.Machine
end

