-- ==== Sys2Proof/Machine/Buzzer.lean ====
section
/-! DEFINITION. The buzzer_sequencer_fsm: REQBUZZ and BZADV (43_buzzer_sequencer_fsm.md rules R129 to R143). -/

namespace Sys2Proof.Machine

/-- Enter a phase: `bz_elapsed <- 0`, the phase, and the entry action of rule R136, which puts the tone on in Sounding
and off in every other phase. The other fields of `b` are those the caller gives. -/
def enterPhase (ph : BzPhase) (b : BuzzerState) (s : State) : State :=
  emit (.bz (ph == .sounding) b.freq) { s with buzzer := { b with phase := ph, elapsed := 0#16 } }

/-- REQBUZZ (rules R129, R130): the same from every phase; nothing of the old pattern survives. -/
def reqbuzzOp (freq rpt : Byte) (s : State) : State :=
  respond []
    (enterPhase .sounding { s.buzzer with freq := freq, rptTgt := rpt, rptCnt := 0#8, dbl := false } s)

/-- `REQBUZZ freq, rpt` (rule R129), a HOST operation. -/
def execReqbuzz (freq rpt : Byte) (s : State) : Answer :=
  perform (.reqbuzz freq rpt) (reqbuzzOp freq rpt) s

/-- One tick in a phase that lasts `duration` ticks: `bz_elapsed` goes up by one and, when it has reached the duration,
`next` ends the phase (rule R131). -/
def phaseTick (duration : Nat) (next : State → State) (s : State) : State :=
  let elapsed := s.buzzer.elapsed + 1#16
  if duration ≤ elapsed.toNat then next s else { s with buzzer := { s.buzzer with elapsed := elapsed } }

/-- Sounding ends (rule R133): the first pulse goes to ShortGap, which sets `bz_dbl`; the second to BurstGap, which
clears it. -/
def endSounding (s : State) : State :=
  if s.buzzer.dbl then enterPhase .burstGap { s.buzzer with dbl := false } s
  else enterPhase .shortGap { s.buzzer with dbl := true } s

/-- ShortGap ends (rule R134): the second pulse of the unit. -/
def endShortGap (s : State) : State := enterPhase .sounding s.buzzer s

/-- BurstGap ends (rule R135): one more unit is complete, and the incremented count is compared with the target by
"greater than or equal". -/
def endBurstGap (s : State) : State :=
  let count := s.buzzer.rptCnt + 1#8
  let b := { s.buzzer with rptCnt := count }
  if s.buzzer.rptTgt.toNat ≤ count.toNat then enterPhase .idle b s else enterPhase .sounding b s

/-- BZADV (rule R131): one tick of the sequencer; in Idle it does nothing (rule R132). -/
def bzadvOp (s : State) : State :=
  match s.buzzer.phase with
  | .idle => s
  | .sounding => phaseTick tOn endSounding s
  | .shortGap => phaseTick tShort endShortGap s
  | .burstGap => phaseTick tBurst endBurstGap s

/-- `BZADV` (rule R131), micro-operation 2 of DISPATCH. -/
def execBzadv (s : State) : Answer := perform .bzadv bzadvOp s

end Sys2Proof.Machine
end

