-- ==== Sys2Proof/Machine/Display.lean ====
section
/-! DEFINITION. The row_multiplexer_shift_register_driver: ROWADV (42_row_multiplexer_shift_register_driver.md rules
R113 to R128). -/

namespace Sys2Proof.Machine

/-- The row-select byte with the row output disabled and the address kept (rule R115). -/
def rowDisable (rowSel : Byte) : Byte := rowSel &&& 0x7F#8

/-- The row-select byte of a row: `0x80 | (rowIndex & 0x7F)` (30_encoding.md rule R73). -/
def rowSelect (row : Byte) : Byte := 0x80#8 ||| (row &&& 0x7F#8)

/-- The events of one column of row `y` (rules R116 to R118): the three data levels, each the complement of the stored
bit, then one clock pulse. -/
def columnEvents (s : State) (y c : Nat) : List Event :=
  [.sd (!pixel s 0 y c) (!pixel s 1 y c) (!pixel s 2 y c), .shcp true, .shcp false]

/-- The events of ROWADV, in order (rule R113): row disable, the columns with bit 0 first, the latch pulse, row select.
The row is the snapshot of the FrameBuffer when ROWADV runs (rule R121). -/
def rowEvents (s : State) : List Event :=
  [.rowsel (rowDisable s.lines.rowSel)] ++
  (List.range s.params.sizeX).flatMap (columnEvents s s.rowCur.toNat) ++
  [.stcp true, .stcp false, .rowsel (rowSelect s.rowCur)]

/-- The cursor after a row (rule R123): one more, and 0 when that is the row count. -/
def nextRow (p : RawParams) (row : Byte) : Byte := if row.toNat + 1 = p.maxY then 0 else row + 1#8

/-- ROWADV (rule R113): emit the row's events, then advance the cursor. It always succeeds (rule R114). -/
def rowadvOp (s : State) : State :=
  { emitAll (rowEvents s) s with rowCur := nextRow s.params.toRawParams s.rowCur }

/-- `ROWADV` (rule R113), micro-operation 3 of DISPATCH. -/
def execRowadv (s : State) : Answer := perform .rowadv rowadvOp s

end Sys2Proof.Machine
end

