-- ==== Sys2Proof/Machine/Scheduler.lean ====
section
/-! DEFINITION. The scheduler_tick_invoker: SCHTICK (44_scheduler_tick_invoker.md rules R146 to R150). -/

namespace Sys2Proof.Machine

/-- SCHTICK (rule R146): the call of the scheduler's tick entry point, which is the event `SCHED` under the assumptions
(a) to (d) of rule R148. DEDUCED, unsafe where the real scheduler breaks one (notes/assumptions/14.md). -/
def schtickOp (s : State) : State := emit .sched s

/-- `SCHTICK` (rule R146), micro-operation 1 of DISPATCH. -/
def execSchtick (s : State) : Answer := perform .schtick schtickOp s

end Sys2Proof.Machine
end

