-- ==== Sys2Proof/Machine/Dispatcher.lean ====
section
/-! DEFINITION. The periodic_interrupt_dispatcher: DISPATCH and IACK (41_periodic_interrupt_dispatcher.md rules R101 to
R109). -/

namespace Sys2Proof.Machine

/-- IACK (rule R105): clear `irq_pending`; `tick_lost` is not cleared. -/
def iackOp (s : State) : State := emit .iack { s with timer := { s.timer with irqPending := false } }

/-- `IACK` (rule R105), micro-operation 4 of DISPATCH. -/
def execIack (s : State) : Answer := perform .iack iackOp s

/-- DISPATCH (rule R101): interrupt entry, the four steps in their fixed order (rule R103), the return; one atomic
operation without duration (rules R104, R203): DEDUCED, unsafe for claims that ticks are on time
(notes/assumptions/18.md). -/
def dispatchOp (s : State) : State :=
  let s1 := schtickOp (enterHandler s)
  let s2 := bzadvOp (setDstep .bzadv s1)
  let s3 := rowadvOp (setDstep .rowadv s2)
  let s4 := iackOp (setDstep .iack s3)
  leaveHandler s4

/-- `DISPATCH` (rule R101), an IRQ operation, enabled exactly when a deliverable interrupt waits (rule R102). -/
def execDispatch (s : State) : Answer := perform .dispatch dispatchOp s

end Sys2Proof.Machine
end

