-- ==== Sys2Proof/Machine/HostAccess.lean ====
section
/-! DEFINITION. The main context's access to the block, and RESET: FBWR, FBRD, IMASK, IUNMASK, RDSR, RESET
(45_host_access.md rules R151 to R158). -/

namespace Sys2Proof.Machine

/-- FBWR (rule R151): write the byte and answer OK, or answer BadAddress and change nothing (60_exceptions.md rule
R168). -/
def fbwrOp (addr : BitVec 16) (data : Byte) (s : State) : State :=
  if inFrameBuffer s.params.toRawParams addr then respond [respOK] (memWrite addr.toNat data s)
  else respond [respBadAddress] s

/-- `FBWR addr, data` (rule R151), a HOST operation. -/
def execFbwr (addr : BitVec 16) (data : Byte) (s : State) : Answer :=
  perform (.fbwr addr data) (fbwrOp addr data) s

/-- FBRD (rule R152): answer OK and the byte, or BadAddress and 0x00. The read has no side effect. -/
def fbrdOp (addr : BitVec 16) (s : State) : State :=
  if inFrameBuffer s.params.toRawParams addr then respond [respOK, memRead s addr.toNat] s
  else respond [respBadAddress, 0x00#8] s

/-- `FBRD addr` (rule R152), a HOST operation. -/
def execFbrd (addr : BitVec 16) (s : State) : Answer := perform (.fbrd addr) (fbrdOp addr) s

/-- IMASK (rule R153): `int_mask <- 1`. Masking does not nest. -/
def imaskOp (s : State) : State := respond [] { s with intMask := true }

/-- `IMASK` (rule R153), a HOST operation. -/
def execImask (s : State) : Answer := perform .imask imaskOp s

/-- IUNMASK (rule R154): `int_mask <- 0`. -/
def iunmaskOp (s : State) : State := respond [] { s with intMask := false }

/-- `IUNMASK` (rule R154), a HOST operation. -/
def execIunmask (s : State) : Answer := perform .iunmask iunmaskOp s

/-- RDSR (rule R155): answer OK and the register's contents, or BadRegister and 0x00 for a reserved number
(60_exceptions.md rule R169). -/
def rdsrOp (n : Byte) (s : State) : State :=
  match statusReg n with
  | some r => respond [respOK, readStatus s r] s
  | none => respond [respBadRegister, 0x00#8] s

/-- `RDSR n` (rule R155), a HOST operation. -/
def execRdsr (n : Byte) (s : State) : Answer := perform (.rdsr n) (rdsrOp n) s

/-- RESET (rule R156): every register takes its reset value and the trace is empty. The parameters and the rest of the
stimulus stream are not state of the block (10_state.md rule R40) and stay. DEDUCED, safe (notes/assumptions/15.md). -/
def resetOp (s : State) : State := { State.resetWith s.params with stim := s.stim }

/-- `RESET` (rule R156), a PLATFORM operation, always enabled. -/
def execReset (s : State) : Answer := perform .reset resetOp s

end Sys2Proof.Machine
end

