-- ==== Sys2Proof/Machine/Timer.lean ====
section
/-! DEFINITION. The timer_reload_configurator and the timer it programs: CONFIG and OSC
(40_timer_reload_configurator.md rules R86 to R98). -/

namespace Sys2Proof.Machine

/-! ### CONFIG -/

/-- CONFIG (rule R86): program a ClockPlan in one step and restart the counters, or answer UnsupportedFrequency and
change nothing (rule R90). `irq_pending`, `int_mask` and `tick_lost` are not touched. -/
def configOp (osc : Osc) (fsel : Byte) (s : State) : State :=
  if supportedFsel fsel then
    respond [respOK]
      { s with
        plan := planFor s.params.toRawParams osc fsel
        planValid := true
        timer := { s.timer with timCnt := 0#16, timPcnt := 0#8 } }
  else respond [respUnsupportedFrequency] s

/-- `CONFIG osc, fsel` (rule R86), a HOST operation. -/
def execConfig (osc : Osc) (fsel : Byte) (s : State) : Answer :=
  perform (.config osc fsel) (configOp osc fsel) s

/-! ### OSC -/

/-- One oscillator cycle under the divisor `psc` and the reload value `reload`: the pseudocode of rule R92. -/
def timerCycle (psc : BitVec 8) (reload : BitVec 16) (t : TimerRegs) : TimerRegs :=
  if t.timPcnt + 1#8 = psc then
    if t.timCnt = reload then overflow { t with timPcnt := 0#8, timCnt := 0#16 }
    else { t with timPcnt := 0#8, timCnt := t.timCnt + 1#16 }
  else { t with timPcnt := t.timPcnt + 1#8 }

/-- `n` oscillator cycles, one after another: what `OSC n` is (rule R92). -/
def timerCycles (psc : BitVec 8) (reload : BitVec 16) : Nat → TimerRegs → TimerRegs
  | 0, t => t
  | n + 1, t => timerCycles psc reload n (timerCycle psc reload t)

/-- The counters are where a running timer has them: `tim_pcnt < tim_psc` and `tim_cnt <= reload` (10_state.md rules
R19, R20). -/
def countersInRange (psc : BitVec 8) (reload : BitVec 16) (t : TimerRegs) : Bool :=
  decide (t.timPcnt.toNat < psc.toNat) && decide (t.timCnt.toNat ≤ reload.toNat)

/-- `n` cycles at once for counters in range. The place in the period counts up by `n`, the period being
`tim_psc * (reload + 1)` cycles (rule R94); each whole period passed is an overflow, and an overflow that finds one
pending is lost (rule R93). -/
def timerJump (psc : BitVec 8) (reload : BitVec 16) (n : Nat) (t : TimerRegs) : TimerRegs :=
  let place := t.timCnt.toNat * psc.toNat + t.timPcnt.toNat + n
  let period := psc.toNat * (reload.toNat + 1)
  let overflows := place / period
  { timCnt := BitVec.ofNat 16 (place % period / psc.toNat)
    timPcnt := BitVec.ofNat 8 (place % period % psc.toNat)
    irqPending := t.irqPending || decide (1 ≤ overflows)
    tickLost := t.tickLost || (t.irqPending && decide (1 ≤ overflows)) || decide (2 ≤ overflows) }

/-- `n` cycles of the timer: `timerCycles`, evaluated in one jump where the counters are in range, as they are in every
state a run reaches. Sys2Proof/Laws/Timer.lean proves `timerRun psc reload n t = timerCycles psc reload n t` for every
`t`. DEDUCED, safe (notes/assumptions/7.md). -/
def timerRun (psc : BitVec 8) (reload : BitVec 16) (n : Nat) (t : TimerRegs) : TimerRegs :=
  if countersInRange psc reload t then timerJump psc reload n t else timerCycles psc reload n t

/-- OSC (rules R92, R95): with a plan the timer runs for `n` cycles; without one it is stopped and nothing happens. -/
def oscOp (n : BitVec 16) (s : State) : State :=
  if s.planValid then { s with timer := timerRun s.plan.timPsc (reloadOf s.plan) n.toNat s.timer } else s

/-- `OSC n` (rule R92), a TIMER operation, always enabled. `OSC 0` is no operation of the block (30_encoding.md rules
R68, R69) and "must not" be treated as a no-operation. -/
def execOsc (n : BitVec 16) (s : State) : Answer :=
  if n = 0#16 then .refused .illegalStimulus else perform (.osc n) (oscOp n) s

end Sys2Proof.Machine
end

