-- ==== Sys2Proof/Machine/Dispatch.lean ====
section
/-! DEFINITION. The meaning of every operation, one arm per constructor of `Instr`. -/

namespace Sys2Proof.Machine

def exec (i : Instr) (s : State) : Host.Outcome State Fault Refusal :=
  match i with
  | .config osc fsel => Sys2Proof.Machine.execConfig osc fsel s
  | .reqbuzz freq rpt => Sys2Proof.Machine.execReqbuzz freq rpt s
  | .fbwr addr data => Sys2Proof.Machine.execFbwr addr data s
  | .fbrd addr => Sys2Proof.Machine.execFbrd addr s
  | .imask => Sys2Proof.Machine.execImask s
  | .iunmask => Sys2Proof.Machine.execIunmask s
  | .rdsr n => Sys2Proof.Machine.execRdsr n s
  | .osc n => Sys2Proof.Machine.execOsc n s
  | .dispatch => Sys2Proof.Machine.execDispatch s
  | .reset => Sys2Proof.Machine.execReset s
  | .schtick => Sys2Proof.Machine.execSchtick s
  | .bzadv => Sys2Proof.Machine.execBzadv s
  | .rowadv => Sys2Proof.Machine.execRowadv s
  | .iack => Sys2Proof.Machine.execIack s

end Sys2Proof.Machine
end

