-- ==== Sys2Proof/Machine/Step.lean ====
section
/-! DEFINITION. One step of the machine, and how the host places an instruction where a step takes it from. -/

namespace Sys2Proof.Machine

/-- One step. Between operations (`dstep` = 0) the next stimulus word is taken from the stream and decoded, an illegal
word is refused whether or not its operation would be enabled (30_encoding.md rule R80), and the operation is
performed. While `dstep` names a dispatcher step, which no state between operations shows (10_state.md rule R34), the
handler goes on: that micro-operation is performed and `dstep` advances: DESIGN CHOICE, safe for runs from RESET
(notes/assumptions/4.md). How words come into the stream: notes/assumptions/5.md. -/
def step (s : State) : Host.Outcome State Fault Refusal :=
  match s.dstep.micro with
  | some i => Answer.thenDo (nextDstep s.dstep) (exec i s)
  | none =>
    match fetch s with
    | none => .refused .endOfStimulus
    | some (w, s') =>
      match decodeStimulus w with
      | .ok i => exec i s'
      | .error _ => .refused .illegalStimulus

/-- `s` with the instruction of an opcode-table row placed where the next step takes it from: a stimulus word at the
head of the stream, a micro-operation as the dispatcher step in progress. -/
def State.withFetchWord (s : State) (nbits w : Nat) : State :=
  match codeOfTableWord nbits w with
  | some c => placeCode c s
  | none => s

end Sys2Proof.Machine
end

