-- ==== Sys2Proof/Machine/Pseudo.lean ====
section
/-! DEFINITION. The pseudo-operations of 30_encoding.md rule R78 (OVF, TICK, TICKS, FBROW, BOOT) as the operations they
expand to. "Each expands to the stimulus words shown; none adds a behaviour." -/

namespace Sys2Proof.Machine

/-- Perform operations one after another, stopping at the first that does not answer a next state. -/
def runInstrs : List Instr → State → Answer
  | [], s => .next s
  | i :: is, s => Answer.andThen (runInstrs is) (exec i s)

/-- The pseudo-operations (rule R78). -/
inductive Pseudo where
  | ovf
  | tick
  | ticks (n : Nat)
  | fbrow (y r g b : Nat)
  | boot (osc : Osc) (fsel : Byte)
deriving DecidableEq, Repr

/-- The number of oscillator cycles up to and including the next overflow: `k` of rule R78. -/
def cyclesToOverflow (s : State) : Nat :=
  (s.plan.timPsc.toNat - s.timer.timPcnt.toNat) +
    ((reloadOf s.plan).toNat - s.timer.timCnt.toNat) * s.plan.timPsc.toNat

/-- `k` cycles as OSC operations: OSC 65535 as often as it goes, then the rest if it is not 0 (rule R78). -/
def oscSplit (k : Nat) : List Instr :=
  List.replicate (k / 65535) (.osc 65535) ++
    (if k % 65535 = 0 then [] else [.osc (BitVec.ofNat 16 (k % 65535))])

/-- `OVF`: needs `plan_valid = 1`. -/
def expandOvf (s : State) : Option (List Instr) :=
  if s.planValid then some (oscSplit (cyclesToOverflow s)) else none

/-- `TICK`: OVF then DISPATCH; needs `plan_valid = 1`, `int_mask = 0`, `irq_pending = 0`. -/
def expandTick (s : State) : Option (List Instr) :=
  if s.intMask || s.timer.irqPending then none
  else
    match expandOvf s with
    | some l => some (l ++ [.dispatch])
    | none => none

/-- `TICKS n`: TICK `n` times, each expanded, with TICK's conditions, in the state in which it is reached. Rule R78 allows
`n = 0` and gives the conditions "as `TICK`", and does not say whether they are needed when no TICK is made: here `TICKS 0`
is no operation in every state, with no condition checked. DESIGN CHOICE, safe (notes/assumptions/21.md). -/
def expandTicks : Nat → State → Option (List Instr)
  | 0, _ => some []
  | n + 1, s =>
    match expandTick s with
    | none => none
    | some l =>
      match runInstrs l s with
      | .next t =>
        match expandTicks n t with
        | some rest => some (l ++ rest)
        | none => none
      | .fault _ => none
      | .refused _ => none

/-- The bytes of one row value in one plane, written with FBWR, byte `k = 0` first (rule R78). -/
def rowWrites (p : RawParams) (plane y v : Nat) : List Instr :=
  (List.range (rowBytes p)).map fun k =>
    .fbwr (BitVec.ofNat 16 (fbAddr p plane y k)) (BitVec.ofNat 8 (v / 2 ^ (8 * k)))

/-- The operations of `FBROW y, r, g, b`: the three row values under IMASK (rule R78). -/
def fbrowInstrs (p : RawParams) (y r g b : Nat) : List Instr :=
  .imask :: (rowWrites p 0 y r ++ rowWrites p 1 y g ++ rowWrites p 2 y b ++ [.iunmask])

/-- `FBROW`: needs `int_mask = 0`, `y < MAX_Y`, and values below `2^SIZE_X`. -/
def expandFbrow (y r g b : Nat) (s : State) : Option (List Instr) :=
  if s.intMask then none
  else if y < s.params.maxY ∧ r < 2 ^ s.params.sizeX ∧ g < 2 ^ s.params.sizeX ∧ b < 2 ^ s.params.sizeX then
    some (fbrowInstrs s.params.toRawParams y r g b)
  else none

/-- The operations of `BOOT osc, fsel` (rule R78, 70_reset_and_hazards.md rule R200). -/
def bootInstrs (osc : Osc) (fsel : Byte) : List Instr := [.reset, .config osc fsel, .iunmask]

/-- The expansion of a pseudo-operation at a state; none where its conditions do not hold. -/
def Pseudo.expand : Pseudo → State → Option (List Instr)
  | .ovf, s => expandOvf s
  | .tick, s => expandTick s
  | .ticks n, s => expandTicks n s
  | .fbrow y r g b, s => expandFbrow y r g b s
  | .boot osc fsel, _ => some (bootInstrs osc fsel)

/-- The stimulus words of operations, in order; a micro-operation has none (rule R70). -/
def wordsOf : List Instr → List StimWord
  | [] => []
  | i :: is =>
    match encode i with
    | .stimulus w => w :: wordsOf is
    | .micro _ => wordsOf is

end Sys2Proof.Machine
end

