-- ==== Sys2Proof/Safety.lean ====
section
/-! DEFINITION. The terms in which claims are stated: what holds between operations (the invariants of 10_state.md and
of the 4N files), a clean run (70_reset_and_hazards.md rule R210), the buzzer's timeline (43_buzzer_sequencer_fsm.md
rule R137) and the receivers' view of the output trace (42_row_multiplexer_shift_register_driver.md rule R125). -/

namespace Sys2Proof.Safety

open Sys2Proof.Machine

/-! ### Runs -/

/-- A machine for the parameter set `p`, right after RESET, given a stimulus stream. -/
def boot (p : Params) (ws : List StimWord) : State := { State.resetWith p with stim := ws }

/-- `k` steps from RESET under the stream `ws` lead to `s`: none of these words was refused. -/
def Reaches (p : Params) (ws : List StimWord) (k : Nat) (s : State) : Prop :=
  core.run k (boot p ws) = .next s

/-- "A run is *clean* when no word was refused and `tick_lost` = 0" (rule R210), for the run that performs the whole
stream. -/
def CleanRun (p : Params) (ws : List StimWord) (s : State) : Prop :=
  Reaches p ws ws.length s ∧ s.timer.tickLost = false

/-- A deliverable interrupt is waiting: `irq_pending = 1` and `int_mask = 0` (30_encoding.md rule R80). -/
def InterruptWaits (s : State) : Prop := s.timer.irqPending = true ∧ s.intMask = false

/-- The number of ticks in a list of operations: its DISPATCH operations (00_scope.md rule R12). -/
def ticksIn (is : List Instr) : Nat := is.count .dispatch

/-! ### What holds between operations -/

/-- `dstep` is 0 (10_state.md rule R34). -/
def Between (s : State) : Prop := s.dstep = .outside

/-- The byte store of the FrameBuffer is canonical: rising addresses, no zero byte, every address in the region, and no
padding bit set (20_memory.md rules R46, R50). -/
def FrameBufferOk (s : State) : Prop :=
  Memory.wf s.fb ∧
    ∀ c ∈ s.fb, c.1 < fbBytes s.params.toRawParams ∧ c.2 &&& columnMask s.params.toRawParams c.1 = c.2

/-- With a plan, the plan registers hold what CONFIG computes for the stored selection, `clk_fsel` is not 3 and the
counters are in range; without one, they hold their reset values, nothing is pending and nothing was lost (10_state.md
rules R14 to R20; 40_timer_reload_configurator.md rule R95). -/
def TimerOk (s : State) : Prop :=
  if s.planValid = true then
    s.plan.clkFsel ≠ 3#2 ∧
      s.plan = planFor s.params.toRawParams s.plan.clkOsc (s.plan.clkFsel.setWidth 8) ∧
      s.timer.timPcnt.toNat < s.plan.timPsc.toNat ∧ s.timer.timCnt.toNat ≤ (reloadOf s.plan).toNat
  else
    s.plan = (State.resetWith s.params).plan ∧ s.timer = (State.resetWith s.params).timer

/-- `row_cur = n_disp mod MAX_Y` (42_row_multiplexer_shift_register_driver.md rule R124); the row-select byte is 0x00
until the first tick and then selects the row of the last tick (rule R122); the clock and the latch line are LOW
(10_state.md rule R31). -/
def DisplayOk (s : State) : Prop :=
  s.rowCur.toNat = s.nDisp % s.params.maxY ∧
    s.lines.rowSel =
      (if s.nDisp = 0 then 0x00#8 else 0x80#8 ||| BitVec.ofNat 8 ((s.nDisp - 1) % s.params.maxY)) ∧
    s.lines.shcp = false ∧ s.lines.stcp = false

/-- Units a pattern plays: `N = max(n, 1)` (43_buzzer_sequencer_fsm.md rules R137, R138). -/
def unitsOf (target : Nat) : Nat := max target 1

/-- What the buzzer registers are in each phase (10_state.md rules R26 to R29; 43_buzzer_sequencer_fsm.md rules R132,
R139). -/
def BuzzerOk (b : BuzzerState) : Prop :=
  match b.phase with
  | .idle =>
    b.elapsed = 0#16 ∧ b.dbl = false ∧
      (b.rptCnt.toNat = unitsOf b.rptTgt.toNat ∨ (b.rptCnt = 0#8 ∧ b.rptTgt = 0#8))
  | .sounding => b.elapsed.toNat < tOn ∧ b.rptCnt.toNat < unitsOf b.rptTgt.toNat
  | .shortGap => b.elapsed.toNat < tShort ∧ b.dbl = true ∧ b.rptCnt.toNat < unitsOf b.rptTgt.toNat
  | .burstGap => b.elapsed.toNat < tBurst ∧ b.dbl = false ∧ b.rptCnt.toNat < unitsOf b.rptTgt.toNat

/-- `bz_on = 1` if and only if `bz_phase = Sounding` (10_state.md rule R33). -/
def ToneOk (s : State) : Prop := s.lines.bzOn = true ↔ s.buzzer.phase = .sounding

/-- The line levels after a list of events, from the reset levels. -/
def levelsAfter (p : Params) (es : List Event) : OutputLines :=
  es.foldl OutputLines.apply (State.resetWith p).lines

/-- The trace accounts for the state: one SCHED and one IACK event for each DISPATCH (44_scheduler_tick_invoker.md
rule R149), and every line has the level its last event gave it (20_memory.md rule R59). -/
def TraceOk (s : State) : Prop :=
  s.outTrace.count .sched = s.nDisp ∧ s.outTrace.count .iack = s.nDisp ∧
    s.lines = levelsAfter s.params s.outTrace

/-- Everything that holds between operations of a run. -/
structure Inv (s : State) : Prop where
  between : Between s
  frameBuffer : FrameBufferOk s
  timer : TimerOk s
  display : DisplayOk s
  buzzer : BuzzerOk s.buzzer
  tone : ToneOk s
  trace : TraceOk s

/-! ### The buzzer's timeline -/

/-- The buzzer registers of a pattern of `n` units after `t` ticks: the table of 43_buzzer_sequencer_fsm.md rule R137.
-/
def timeline (freq : Byte) (n : Byte) (t : Nat) : BuzzerState :=
  let units := unitsOf n.toNat
  let j := t / 2600
  let u := t % 2600
  if 2600 * units ≤ t then
    { phase := .idle, elapsed := 0#16, rptCnt := BitVec.ofNat 8 units, rptTgt := n, dbl := false, freq := freq }
  else if u < 200 then
    { phase := .sounding, elapsed := BitVec.ofNat 16 u, rptCnt := BitVec.ofNat 8 j, rptTgt := n, dbl := false,
      freq := freq }
  else if u < 400 then
    { phase := .shortGap, elapsed := BitVec.ofNat 16 (u - 200), rptCnt := BitVec.ofNat 8 j, rptTgt := n, dbl := true,
      freq := freq }
  else if u < 600 then
    { phase := .sounding, elapsed := BitVec.ofNat 16 (u - 400), rptCnt := BitVec.ofNat 8 j, rptTgt := n, dbl := true,
      freq := freq }
  else
    { phase := .burstGap, elapsed := BitVec.ofNat 16 (u - 600), rptCnt := BitVec.ofNat 8 j, rptTgt := n, dbl := false,
      freq := freq }

/-- The `BZ` event of the `k`-th tick of a pattern of `n` units, `k` counted from 1: ticks 200, 400, 600 and 2600 of
each unit emit one, the other ticks none (rule R137). The tone goes on at 400 and, unless the pattern ends there, at
2600. -/
def bzEventsAt (freq : Byte) (n : Byte) (k : Nat) : List Event :=
  let units := unitsOf n.toNat
  let u := k % 2600
  if 2600 * units < k then []
  else if u = 200 ∨ u = 600 then [.bz false freq]
  else if u = 400 then [.bz true freq]
  else if u = 0 then [.bz (decide (k < 2600 * units)) freq]
  else []

/-- The `BZ` events of the first `t` ticks of a pattern. -/
def timelineEvents (freq : Byte) (n : Byte) (t : Nat) : List Event :=
  (List.range t).flatMap fun k => bzEventsAt freq n (k + 1)

/-- Is a `BZ` event. -/
def isBz : Event → Bool
  | .bz _ _ => true
  | .sched => false
  | .sd _ _ _ => false
  | .shcp _ => false
  | .stcp _ => false
  | .rowsel _ => false
  | .iack => false

/-- Leaves the running pattern alone: neither REQBUZZ nor RESET. -/
def keepsPattern : Instr → Bool
  | .config _ _ => true
  | .reqbuzz _ _ => false
  | .fbwr _ _ => true
  | .fbrd _ => true
  | .imask => true
  | .iunmask => true
  | .rdsr _ => true
  | .osc _ => true
  | .dispatch => true
  | .reset => false
  | .schtick => true
  | .bzadv => true
  | .rowadv => true
  | .iack => true

/-- Leaves the FrameBuffer and the row sequence alone: neither FBWR nor RESET. -/
def keepsPicture : Instr → Bool
  | .config _ _ => true
  | .reqbuzz _ _ => true
  | .fbwr _ _ => false
  | .fbrd _ => true
  | .imask => true
  | .iunmask => true
  | .rdsr _ => true
  | .osc _ => true
  | .dispatch => true
  | .reset => false
  | .schtick => true
  | .bzadv => true
  | .rowadv => true
  | .iack => true

/-- The events that a DISPATCH at `s` adds to the trace (41_periodic_interrupt_dispatcher.md rule R101). -/
def dispatchEvents (s : State) : List Event := (dispatchOp s).outTrace.drop s.outTrace.length

/-! ### Two states that differ in the picture only -/

/-- The same state but for the FrameBuffer and what shows it: the data lines, the trace and the HOST's last response. -/
def SameButPicture (s t : State) : Prop :=
  { s with fb := [], lines := { s.lines with sdR := false, sdG := false, sdB := false }, outTrace := [], resp := [] } =
  { t with fb := [], lines := { t.lines with sdR := false, sdG := false, sdB := false }, outTrace := [], resp := [] }

/-! ### The receivers' view -/

/-- The levels of the three data lines at each rising edge of the shift clock, given the levels before (rule R125:
read, at each `SHCP(1)` event, the levels set by the last `SD` event). -/
def pulses : (Bool × Bool × Bool) → List Event → List (Bool × Bool × Bool)
  | _, [] => []
  | d, .shcp true :: es => d :: pulses d es
  | d, .shcp false :: es => pulses d es
  | _, .sd r g b :: es => pulses (r, g, b) es
  | d, .sched :: es => pulses d es
  | d, .bz _ _ :: es => pulses d es
  | d, .stcp _ :: es => pulses d es
  | d, .rowsel _ :: es => pulses d es
  | d, .iack :: es => pulses d es

end Sys2Proof.Safety
end

