-- ==== Sys2Proof/Certificates/Slice0/Obligations.lean ====
section
/-! DEFINITION. The statements for the provers. Each docstring says which rule of spec/ it formalises. -/

open Sys2Proof Sys2Proof.Machine Sys2Proof.Safety

/-! ### Encoding and stepping -/

/-- 30_encoding.md rules R61 to R70: decoding the code of an operation gives the operation, with every operand at every
value its field admits. -/
def Obligations.DecodingAnEncodedOperationGivesItBack : Prop :=
  ∀ i : Instr, i.wf = true → decode (encode i) = .ok i

/-- 30_encoding.md rules R61 to R70: a code that decodes is the code of the operation it decodes to, so every operation
has one code and no bit of a legal word is ignored. -/
def Obligations.EncodingADecodedCodeGivesItBack : Prop :=
  ∀ (c : Code) (i : Instr), decode c = .ok i → i.wf = true ∧ encode i = c

/-- The decoder against spec/opcode_table.json: a word is an operation when it selects a row of the table and is not
`OSC 0`, and no word selects two rows (30_encoding.md rule R79). -/
def Obligations.LegalWordsAreThoseOfTheOpcodeTable : Prop :=
  (∀ w : StimWord,
    (∃ i, decodeStimulus w = .ok i) ↔ (∃ r ∈ opcodeRows, w &&& r.mask = r.pattern) ∧ w ≠ 0x80000000#32) ∧
  opcodeRows.Pairwise fun r q => ∀ w : StimWord, ¬ (w &&& r.mask = r.pattern ∧ w &&& q.mask = q.pattern)

/-- 30_encoding.md rule R69: which words are illegal, and that the run is refused there, never a no-operation. -/
def Obligations.IllegalWordsAreRefused : Prop :=
  (∀ w : StimWord,
    (∃ e, decodeStimulus w = .error e) ↔
      (let op := (w.extractLsb' 28 4).toNat
       let a := (w.extractLsb' 8 16).toNat
       let b := (w.extractLsb' 0 8).toNat
       op = 0 ∨ (0xA ≤ op ∧ op ≤ 0xE) ∨ w.extractLsb' 24 4 ≠ 0#4 ∨
       (op = 1 ∧ 2 ≤ a) ∨ (op = 2 ∧ 256 ≤ a) ∨ (op = 4 ∧ b ≠ 0) ∨ (op = 5 ∧ (a ≠ 0 ∨ b ≠ 0)) ∨
       (op = 6 ∧ (a ≠ 0 ∨ b ≠ 0)) ∨ (op = 7 ∧ (256 ≤ a ∨ b ≠ 0)) ∨ (op = 8 ∧ (a = 0 ∨ b ≠ 0)) ∨
       (op = 9 ∧ (a ≠ 0 ∨ b ≠ 0)) ∨ (op = 0xF ∧ (a ≠ 0 ∨ b ≠ 0)))) ∧
  (∃ e, decodeStimulus 0x00000000#32 = .error e) ∧ (∃ e, decodeStimulus 0xFFFFFFFF#32 = .error e) ∧
  (∀ (s : State) (w : StimWord) (rest : List StimWord) (e : IllegalWord),
    s.dstep = .outside → s.stim = w :: rest → decodeStimulus w = .error e → step s = .refused .illegalStimulus) ∧
  (∀ s : State, exec (.osc 0#16) s = .refused .illegalStimulus)

/-- 30_encoding.md rule R66: the words of the four operations without operands. -/
def Obligations.WordsOfTheOperationsWithoutOperands : Prop :=
  encode .imask = .stimulus 0x50000000#32 ∧ encode .iunmask = .stimulus 0x60000000#32 ∧
  encode .dispatch = .stimulus 0x90000000#32 ∧ encode .reset = .stimulus 0xF0000000#32 ∧
  ∀ w : StimWord, w.extractLsb' 0 24 ≠ 0#24 →
    decodeStimulus w ≠ .ok .imask ∧ decodeStimulus w ≠ .ok .iunmask ∧ decodeStimulus w ≠ .ok .dispatch ∧
    decodeStimulus w ≠ .ok .reset

/-- Words written out from 30_encoding.md rules R62 to R68 and the vectors of 95_test_vectors.md, and the
micro-operation codes of rule R70. A sanity statement. -/
def Obligations.SampleWordsDecodeToTheirOperations : Prop :=
  decodeStimulus 0x10000102#32 = .ok (.config .external 2#8) ∧
  decodeStimulus 0x20000703#32 = .ok (.reqbuzz 7#8 3#8) ∧
  decodeStimulus 0x3000030F#32 = .ok (.fbwr 3#16 0x0F#8) ∧
  decodeStimulus 0x40001200#32 = .ok (.fbrd 18#16) ∧
  decodeStimulus 0x70000D00#32 = .ok (.rdsr 0x0D#8) ∧
  decodeStimulus 0x803E8000#32 = .ok (.osc 16000#16) ∧
  decodeMicro 0b001#3 = .ok .schtick ∧ decodeMicro 0b010#3 = .ok .bzadv ∧
  decodeMicro 0b011#3 = .ok .rowadv ∧ decodeMicro 0b100#3 = .ok .iack

/-- 30_encoding.md rule R72: the 16-bit words of the output events, `kind` in bits 15..12 and `arg` in bits 11..0, and
the line each event writes. -/
def Obligations.EventWordsAreKindAndArgument : Prop :=
  Event.sched.word = 0x1000#16 ∧ Event.iack.word = 0x7000#16 ∧
  (∀ on freq, (Event.bz on freq).word = BitVec.ofNat 16 (0x2000 + 0x100 * on.toNat + freq.toNat)) ∧
  (∀ r g b, (Event.sd r g b).word = BitVec.ofNat 16 (0x3000 + r.toNat + 2 * g.toNat + 4 * b.toNat)) ∧
  (∀ v, (Event.shcp v).word = BitVec.ofNat 16 (0x4000 + v.toNat)) ∧
  (∀ v, (Event.stcp v).word = BitVec.ofNat 16 (0x5000 + v.toNat)) ∧
  (∀ x, (Event.rowsel x).word = BitVec.ofNat 16 (0x6000 + x.toNat)) ∧
  ∀ (e : Event) (s : State),
    emit e s =
      { s with
        outTrace := s.outTrace ++ [e]
        lines := match e with
          | .sched => s.lines
          | .bz on _ => { s.lines with bzOn := on }
          | .sd r g b => { s.lines with sdR := r, sdG := g, sdB := b }
          | .shcp v => { s.lines with shcp := v }
          | .stcp v => { s.lines with stcp := v }
          | .rowsel x => { s.lines with rowSel := x }
          | .iack => s.lines }

/-- Between operations a step takes the next stimulus word, and performs the operation it decodes to
(30_encoding.md rules R61, R79). With no word left the run has ended (70_reset_and_hazards.md rule R210; that the model
answers by a refusal is its choice, notes/assumptions/3.md). -/
def Obligations.AStepPerformsTheNextStimulusWord : Prop :=
  (∀ (s : State) (w : StimWord) (rest : List StimWord) (i : Instr),
    s.dstep = .outside → s.stim = w :: rest → decodeStimulus w = .ok i → step s = exec i { s with stim := rest }) ∧
  (∀ s : State, s.dstep = .outside → s.stim = [] → step s = .refused .endOfStimulus)

/-- The model's choice (notes/assumptions/4.md): in a state inside the handler, which no operation leaves behind, a step
performs the micro-operation that `dstep` names and then advances `dstep`, the last one returning from the handler. -/
def Obligations.AStepInsideTheHandlerPerformsItsMicroOperation : Prop :=
  ∀ s t : State,
    (s.dstep = .schtick → exec .schtick s = .next t → step s = .next { t with dstep := .bzadv }) ∧
    (s.dstep = .bzadv → exec .bzadv s = .next t → step s = .next { t with dstep := .rowadv }) ∧
    (s.dstep = .rowadv → exec .rowadv s = .next t → step s = .next { t with dstep := .iack }) ∧
    (s.dstep = .iack → exec .iack s = .next t →
      step s = .next { t with dstep := .outside, nDisp := t.nDisp + 1 })

/-- 30_encoding.md rule R80: the enabling conditions, each as what `exec` answers; and an illegal word is refused as
such in every state between operations. -/
def Obligations.OperationsRunExactlyWhenEnabled : Prop :=
  ∀ s : State,
    (∃ t, exec .reset s = .next t) ∧
    (∀ n : BitVec 16, n ≠ 0#16 → ∃ t, exec (.osc n) s = .next t) ∧
    (InterruptWaits s → ∃ t, exec .dispatch s = .next t) ∧
    (¬ InterruptWaits s → exec .dispatch s = .refused .notEnabled) ∧
    (∀ i : Instr,
      i = .imask ∨ i = .iunmask ∨ (∃ osc fsel, i = .config osc fsel) ∨ (∃ freq rpt, i = .reqbuzz freq rpt) ∨
        (∃ addr data, i = .fbwr addr data) ∨ (∃ addr, i = .fbrd addr) ∨ (∃ n, i = .rdsr n) →
      (¬ InterruptWaits s → ∃ t, exec i s = .next t) ∧ (InterruptWaits s → exec i s = .refused .notEnabled)) ∧
    (∀ (w : StimWord) (rest : List StimWord) (e : IllegalWord),
      s.dstep = .outside → s.stim = w :: rest → decodeStimulus w = .error e → step s = .refused .illegalStimulus)

/-- The model's reading (notes/assumptions/17.md, DEDUCED from 30_encoding.md rule R70; rule R80 has no row for
micro-operations): a micro-operation performed by itself completes exactly while `dstep` has its code. -/
def Obligations.MicroOperationsRunExactlyAtTheirStep : Prop :=
  ∀ (s : State) (i : Instr), i = .schtick ∨ i = .bzadv ∨ i = .rowadv ∨ i = .iack →
    (s.dstep = DStep.ofInstr i → ∃ t, exec i s = .next t) ∧
    (s.dstep ≠ DStep.ofInstr i → exec i s = .refused .notEnabled)

/-! ### CONFIG and OSC -/

/-- 40_timer_reload_configurator.md rules R86, R88: what a successful CONFIG leaves, and that it changes nothing else.
-/
def Obligations.ConfigProgramsThePlanAndRestartsTheTimer : Prop :=
  ∀ (s : State) (osc : Osc) (fsel : Byte), ¬ InterruptWaits s → fsel.toNat ≤ 2 →
    let p := s.params.toRawParams
    let fOsc := match osc with
      | .internal => p.fIntHz
      | .external => p.fExtHz
    let reload := fOsc / (pscDiv p osc fsel.toNat * (1000 * 2 ^ fsel.toNat)) - 1
    exec (.config osc fsel) s =
      .next { s with
        plan :=
          { clkOsc := osc
            clkFsel := BitVec.ofNat 2 fsel.toNat
            timPsc := BitVec.ofNat 8 (pscDiv p osc fsel.toNat)
            timArrh := BitVec.ofNat 8 (reload / 256)
            timArrl := BitVec.ofNat 8 (reload % 256) }
        planValid := true
        timer := { s.timer with timCnt := 0#16, timPcnt := 0#8 }
        resp := [0#8] }

/-- 40_timer_reload_configurator.md rule R90 and 60_exceptions.md rule R167: an unsupported frequency is answered by
code 1 and leaves every register unchanged. -/
def Obligations.ConfigOfAnUnsupportedFrequencyChangesNothing : Prop :=
  ∀ (s : State) (osc : Osc) (fsel : Byte), ¬ InterruptWaits s → 2 < fsel.toNat →
    exec (.config osc fsel) s = .next { s with resp := [1#8] }

/-- The period a successful CONFIG programs is the target's, within one counter unit, for every parameter set: what
40_timer_reload_configurator.md rule R91 infers from rule R88 (the spec marks it as derived). Both sides are
multiplied by `f_t`. -/
def Obligations.ConfiguredPeriodIsWithinOneCounterUnit : Prop :=
  ∀ (s : State) (osc : Osc) (fsel : Byte), ¬ InterruptWaits s → fsel.toNat ≤ 2 →
    ∃ t, exec (.config osc fsel) s = .next t ∧
      let div := t.plan.timPsc.toNat
      let reload := t.plan.timArrh.toNat * 256 + t.plan.timArrl.toNat
      let fOsc := oscHz s.params.toRawParams osc
      let fTarget := 1000 * 2 ^ fsel.toNat
      1 ≤ div ∧ div * (reload + 1) * fTarget ≤ fOsc ∧ fOsc < div * (reload + 2) * fTarget

/-- 40_timer_reload_configurator.md rule R92: one oscillator cycle, case by case, for counters in range; nothing outside
the timer registers changes. -/
def Obligations.OneOscillatorCycleAdvancesTheTimer : Prop :=
  ∀ s : State, s.planValid = true → s.timer.timPcnt.toNat < s.plan.timPsc.toNat →
    s.timer.timCnt.toNat ≤ s.plan.timArrh.toNat * 256 + s.plan.timArrl.toNat →
    (s.timer.timPcnt.toNat + 1 ≠ s.plan.timPsc.toNat →
      exec (.osc 1#16) s = .next { s with timer := { s.timer with timPcnt := s.timer.timPcnt + 1#8 } }) ∧
    (s.timer.timPcnt.toNat + 1 = s.plan.timPsc.toNat →
      s.timer.timCnt.toNat ≠ s.plan.timArrh.toNat * 256 + s.plan.timArrl.toNat →
      exec (.osc 1#16) s =
        .next { s with timer := { s.timer with timPcnt := 0#8, timCnt := s.timer.timCnt + 1#16 } }) ∧
    (s.timer.timPcnt.toNat + 1 = s.plan.timPsc.toNat →
      s.timer.timCnt.toNat = s.plan.timArrh.toNat * 256 + s.plan.timArrl.toNat →
      exec (.osc 1#16) s =
        .next { s with
          timer :=
            { timCnt := 0#16, timPcnt := 0#8, irqPending := true,
              tickLost := s.timer.tickLost || s.timer.irqPending } })

/-- 30_encoding.md rule R68: "`OSC n` is exactly `n` repetitions of `OSC 1`", from every state. -/
def Obligations.OscIsRepeatedSingleCycles : Prop :=
  ∀ (s : State) (n : BitVec 16), n ≠ 0#16 →
    exec (.osc n) s = runInstrs (List.replicate n.toNat (.osc 1#16)) s

/-- 40_timer_reload_configurator.md rule R95: without a plan OSC changes nothing, and between operations nothing is
pending and no DISPATCH can occur. -/
def Obligations.WithoutAPlanTheTimerIsStopped : Prop :=
  ∀ s : State, s.planValid = false →
    (∀ n : BitVec 16, n ≠ 0#16 → exec (.osc n) s = .next s) ∧
    (TimerOk s → s.timer.irqPending = false ∧ exec .dispatch s = .refused .notEnabled)

/-- 40_timer_reload_configurator.md rule R93 and the period law that rule R94 infers from rule R92 (the spec marks it as
derived): from the start of a period, any sequence of OSC operations with
`total` cycles passes `total / period` overflows and leaves the counters at `total mod period`, the period being
`tim_psc * (reload + 1)`. One overflow sets `irq_pending`; a second one with none served is lost. -/
def Obligations.OverflowsAreOnePeriodApart : Prop :=
  ∀ (s : State) (ns : List (BitVec 16)),
    s.planValid = true → s.plan.timPsc ≠ 0#8 → s.timer.timCnt = 0#16 → s.timer.timPcnt = 0#8 →
    s.timer.irqPending = false → s.timer.tickLost = false → (∀ n ∈ ns, n ≠ 0#16) →
    let period := s.plan.timPsc.toNat * (s.plan.timArrh.toNat * 256 + s.plan.timArrl.toNat + 1)
    let total := (ns.map BitVec.toNat).sum
    ∃ tm : TimerRegs,
      runInstrs (ns.map .osc) s = .next { s with timer := tm } ∧
      tm.timCnt.toNat * s.plan.timPsc.toNat + tm.timPcnt.toNat = total % period ∧
      tm.timPcnt.toNat < s.plan.timPsc.toNat ∧
      (tm.irqPending = true ↔ 1 ≤ total / period) ∧ (tm.tickLost = true ↔ 2 ≤ total / period)

/-- 30_encoding.md rule R78, OVF: its expansion runs to the next overflow and not past it. -/
def Obligations.OvfRunsUpToTheNextOverflow : Prop :=
  ∀ s : State, s.planValid = true → s.timer.timPcnt.toNat < s.plan.timPsc.toNat →
    s.timer.timCnt.toNat ≤ (reloadOf s.plan).toNat → s.timer.irqPending = false →
    (∃ l, Pseudo.ovf.expand s = some l ∧
      runInstrs l s =
        .next { s with timer := { s.timer with timCnt := 0#16, timPcnt := 0#8, irqPending := true } }) ∧
    ∀ n : BitVec 16, n ≠ 0#16 → n.toNat < cyclesToOverflow s →
      ∃ t, exec (.osc n) s = .next t ∧ t.timer.irqPending = false

/-! ### DISPATCH and its micro-operations -/

/-- 41_periodic_interrupt_dispatcher.md rules R101, R103: DISPATCH is the four micro-operations in their fixed order,
each performed with `dstep` at its code, between interrupt entry and return. -/
def Obligations.DispatchIsItsFourStepsInOrder : Prop :=
  ∀ s : State, InterruptWaits s →
    ∃ s1 s2 s3 s4,
      exec .schtick { s with dstep := .schtick } = .next s1 ∧
      exec .bzadv { s1 with dstep := .bzadv } = .next s2 ∧
      exec .rowadv { s2 with dstep := .rowadv } = .next s3 ∧
      exec .iack { s3 with dstep := .iack } = .next s4 ∧
      exec .dispatch s = .next { s4 with dstep := .outside, nDisp := s.nDisp + 1 }

/-- 41_periodic_interrupt_dispatcher.md rule R104 as a refinement (the stepping of the handler is the model's choice,
notes/assumptions/4.md): four single steps of the handler, started by interrupt entry, lead where the atomic DISPATCH
leads. -/
def Obligations.SteppingTheHandlerIsTheAtomicDispatch : Prop :=
  ∀ s : State, InterruptWaits s → core.run 4 { s with dstep := .schtick } = exec .dispatch s

/-- 60_exceptions.md rules R177, R178, R180: what a DISPATCH leaves unchanged and what its return leaves. -/
def Obligations.DispatchLeavesTheMainContextAlone : Prop :=
  ∀ s : State, InterruptWaits s →
    ∃ t, exec .dispatch s = .next t ∧
      t.params = s.params ∧ t.plan = s.plan ∧ t.planValid = s.planValid ∧ t.fb = s.fb ∧
      (∀ a, memRead t a = memRead s a) ∧ t.intMask = false ∧
      t.timer = { s.timer with irqPending := false } ∧
      t.buzzer.freq = s.buzzer.freq ∧ t.buzzer.rptTgt = s.buzzer.rptTgt ∧
      t.dstep = .outside ∧ t.nDisp = s.nDisp + 1 ∧ t.resp = s.resp ∧ t.stim = s.stim

/-- 41_periodic_interrupt_dispatcher.md rule R101: the output events of a DISPATCH, in order: SCHED, zero or one BZ, the
`3 * SIZE_X + 4` events of ROWADV, IACK. -/
def Obligations.DispatchEmitsItsEventsInOrder : Prop :=
  ∀ s : State, InterruptWaits s →
    ∃ (t : State) (bz row : List Event),
      exec .dispatch s = .next t ∧ t.outTrace = s.outTrace ++ (.sched :: (bz ++ row ++ [.iack])) ∧
      (bz = [] ∨ ∃ on, bz = [.bz on s.buzzer.freq]) ∧
      row.length = 3 * s.params.sizeX + 4 ∧
      ∀ e ∈ row, e ≠ .sched ∧ e ≠ .iack ∧ isBz e = false

/-- 44_scheduler_tick_invoker.md rule R146: SCHTICK is the one event SCHED and writes no state. -/
def Obligations.SchtickOnlyCallsTheScheduler : Prop :=
  ∀ s : State, s.dstep = .schtick → exec .schtick s = .next { s with outTrace := s.outTrace ++ [.sched] }

/-- 41_periodic_interrupt_dispatcher.md rule R105: IACK clears `irq_pending`, not `tick_lost`, and emits IACK, whose
word is 0x7000. -/
def Obligations.IackClearsThePendingFlag : Prop :=
  (∀ s : State, s.dstep = .iack →
    exec .iack s =
      .next { s with timer := { s.timer with irqPending := false }, outTrace := s.outTrace ++ [.iack] }) ∧
  Event.iack.word = 0x7000#16 ∧ encode .iack = .micro 0b100#3

/-! ### The buzzer -/

/-- 43_buzzer_sequencer_fsm.md rules R129, R130: what REQBUZZ leaves, the same from every phase, and that it changes
nothing else. -/
def Obligations.ReqbuzzRestartsThePatternFromEveryPhase : Prop :=
  ∀ (s : State) (freq rpt : Byte), ¬ InterruptWaits s →
    exec (.reqbuzz freq rpt) s =
      .next { s with
        buzzer := { phase := .sounding, elapsed := 0#16, rptCnt := 0#8, rptTgt := rpt, dbl := false, freq := freq }
        lines := { s.lines with bzOn := true }
        outTrace := s.outTrace ++ [.bz true freq]
        resp := [] }

/-- 43_buzzer_sequencer_fsm.md rule R132: in Idle BZADV does nothing, and only REQBUZZ leads out of Idle; every other
operation but RESET keeps the buzzer registers. -/
def Obligations.IdleLastsUntilReqbuzz : Prop :=
  (∀ s : State, s.dstep = .bzadv → s.buzzer.phase = .idle → exec .bzadv s = .next s) ∧
  (∀ (i : Instr) (s t : State), exec i s = .next t → s.buzzer.phase = .idle →
    (∀ freq rpt, i ≠ .reqbuzz freq rpt) → t.buzzer.phase = .idle ∧ (i ≠ .reset → t.buzzer = s.buzzer))

/-- 43_buzzer_sequencer_fsm.md rule R131: a tick that ends no phase counts `bz_elapsed` up and does nothing else. -/
def Obligations.BzadvCountsTicksWithinAPhase : Prop :=
  ∀ s : State, s.dstep = .bzadv →
    (s.buzzer.phase = .sounding ∧ s.buzzer.elapsed.toNat + 1 < 200) ∨
      (s.buzzer.phase = .shortGap ∧ s.buzzer.elapsed.toNat + 1 < 200) ∨
      (s.buzzer.phase = .burstGap ∧ s.buzzer.elapsed.toNat + 1 < 2000) →
    exec .bzadv s = .next { s with buzzer := { s.buzzer with elapsed := s.buzzer.elapsed + 1#16 } }

/-- 43_buzzer_sequencer_fsm.md rules R131, R133 to R136: the tick that ends a phase: the next phase, its entry action,
and nothing else. -/
def Obligations.BzadvEndsAPhaseByTheTable : Prop :=
  ∀ s : State, s.dstep = .bzadv →
    let enters (ph : BzPhase) (dbl : Bool) (cnt : Byte) : Prop :=
      exec .bzadv s =
        .next { s with
          buzzer := { s.buzzer with phase := ph, elapsed := 0#16, dbl := dbl, rptCnt := cnt }
          lines := { s.lines with bzOn := (ph == .sounding) }
          outTrace := s.outTrace ++ [.bz (ph == .sounding) s.buzzer.freq] }
    (s.buzzer.phase = .sounding → s.buzzer.elapsed = 199#16 → s.buzzer.dbl = false →
      enters .shortGap true s.buzzer.rptCnt) ∧
    (s.buzzer.phase = .sounding → s.buzzer.elapsed = 199#16 → s.buzzer.dbl = true →
      enters .burstGap false s.buzzer.rptCnt) ∧
    (s.buzzer.phase = .shortGap → s.buzzer.elapsed = 199#16 → enters .sounding s.buzzer.dbl s.buzzer.rptCnt) ∧
    (s.buzzer.phase = .burstGap → s.buzzer.elapsed = 1999#16 → s.buzzer.rptCnt.toNat < 255 →
      (s.buzzer.rptTgt.toNat ≤ s.buzzer.rptCnt.toNat + 1 →
        enters .idle s.buzzer.dbl (s.buzzer.rptCnt + 1#8)) ∧
      (s.buzzer.rptCnt.toNat + 1 < s.buzzer.rptTgt.toNat →
        enters .sounding s.buzzer.dbl (s.buzzer.rptCnt + 1#8)))

/-- The timeline that 43_buzzer_sequencer_fsm.md rule R137 infers from rules R129, R131 (the spec marks it as
derived): after a REQBUZZ and any operations without another REQBUZZ or a RESET, the buzzer registers, the tone and
the BZ events are those the table gives for the number of ticks among them, whatever else these operations are and in
whatever order. -/
def Obligations.TheBuzzerFollowsItsTimeline : Prop :=
  ∀ (s s0 s1 : State) (freq rpt : Byte) (is : List Instr),
    s.dstep = .outside → exec (.reqbuzz freq rpt) s = .next s0 → (∀ i ∈ is, keepsPattern i = true) →
    runInstrs is s0 = .next s1 →
    s1.buzzer = timeline freq rpt (ticksIn is) ∧
    s1.lines.bzOn = (s1.buzzer.phase == .sounding) ∧
    s1.outTrace.filter isBz = s0.outTrace.filter isBz ++ timelineEvents freq rpt (ticksIn is)

/-- What 43_buzzer_sequencer_fsm.md rule R138 infers from rules R129, R135 (the spec marks it as derived): `rpt = 0`
plays one repeat unit, is Idle from tick 2600 on with `bz_rpt_cnt` = 1, and gives the registers that `rpt = 1` gives
but for `bz_rpt_tgt`. -/
def Obligations.RepeatTargetZeroPlaysOneUnit : Prop :=
  ∀ (s s0 s1 r0 r1 : State) (freq : Byte) (is : List Instr),
    s.dstep = .outside → exec (.reqbuzz freq 0#8) s = .next s0 → exec (.reqbuzz freq 1#8) s = .next r0 →
    (∀ i ∈ is, keepsPattern i = true) → runInstrs is s0 = .next s1 → runInstrs is r0 = .next r1 →
    s1.buzzer = { r1.buzzer with rptTgt := 0#8 } ∧
    (s1.buzzer.phase = .idle ↔ 2600 ≤ ticksIn is) ∧
    (2600 ≤ ticksIn is → s1.buzzer.rptCnt = 1#8)

/-! ### The display -/

/-- 42_row_multiplexer_shift_register_driver.md rules R113, R127: the events of ROWADV written out, the levels it
leaves, the cursor, and that it changes nothing else. -/
def Obligations.RowadvShiftsLatchesAndSelectsOneRow : Prop :=
  ∀ s : State, s.dstep = .rowadv →
    let y := s.rowCur
    let level (plane c : Nat) : Bool := !pixel s plane y.toNat c
    let columns : List Event :=
      (List.range s.params.sizeX).flatMap fun c =>
        [.sd (level 0 c) (level 1 c) (level 2 c), .shcp true, .shcp false]
    let last := s.params.sizeX - 1
    exec .rowadv s =
      .next { s with
        outTrace :=
          s.outTrace ++ [.rowsel (s.lines.rowSel &&& 0x7F#8)] ++ columns ++
            [.stcp true, .stcp false, .rowsel (0x80#8 ||| (y &&& 0x7F#8))]
        lines :=
          { s.lines with
            sdR := level 0 last, sdG := level 1 last, sdB := level 2 last, shcp := false, stcp := false,
            rowSel := 0x80#8 ||| (y &&& 0x7F#8) }
        rowCur := if y.toNat + 1 = s.params.maxY then 0#8 else y + 1#8 }

/-- The protocol view that 42_row_multiplexer_shift_register_driver.md rule R125 infers from rule R113 (the spec marks
it as derived): from any ROWADV the receivers see the row output disabled, `SIZE_X` clock pulses carrying the
complements of the row's bits with column 0 first, one latch pulse, and the row-select byte. -/
def Obligations.ReceiversSeeTheRowInProtocolOrder : Prop :=
  ∀ s t : State, exec .rowadv s = .next t →
    ∃ (x : Byte) (shift : List Event),
      t.outTrace =
        s.outTrace ++ .rowsel x :: (shift ++ [.stcp true, .stcp false, .rowsel (0x80#8 ||| (s.rowCur &&& 0x7F#8))]) ∧
      x.getLsbD 7 = false ∧
      (∀ e ∈ shift, (∃ r g b, e = .sd r g b) ∨ (∃ v, e = .shcp v)) ∧
      ∀ d, pulses d shift =
        (List.range s.params.sizeX).map fun c =>
          (!pixel s 0 s.rowCur.toNat c, !pixel s 1 s.rowCur.toNat c, !pixel s 2 s.rowCur.toNat c)

/-- 42_row_multiplexer_shift_register_driver.md rule R123: the cursor goes to `(row_cur + 1) mod MAX_Y`, and it is the
cursor's only change. -/
def Obligations.CursorAdvancesByOneModuloTheRows : Prop :=
  (∀ s : State, s.dstep = .rowadv → s.rowCur.toNat < s.params.maxY →
    ∃ t, exec .rowadv s = .next t ∧ t.rowCur.toNat = (s.rowCur.toNat + 1) % s.params.maxY) ∧
  (∀ (i : Instr) (s t : State), exec i s = .next t → i ≠ .rowadv → i ≠ .dispatch → i ≠ .reset → t.rowCur = s.rowCur)

/-- The idempotence that 42_row_multiplexer_shift_register_driver.md rule R126 infers from rules R113, R124 (the spec
marks it as derived): with no FBWR, `MAX_Y` ticks later the same row goes out event for event, from the second tick of
a run on; and if the buzzer is Idle throughout, the complete event lists of the two DISPATCH operations are equal. -/
def Obligations.TheSameRowGoesOutOneRefreshLater : Prop :=
  ∀ (s t : State) (is : List Instr),
    s.dstep = .outside → DisplayOk s → 1 ≤ s.nDisp → (∀ i ∈ is, keepsPicture i = true) →
    runInstrs is s = .next t → ticksIn is = s.params.maxY →
    rowEvents t = rowEvents s ∧
    (s.buzzer.phase = .idle → (∀ i ∈ is, ∀ freq rpt, i ≠ .reqbuzz freq rpt) →
      dispatchEvents t = dispatchEvents s)

/-! ### The main context's access -/

/-- 45_host_access.md rule R151, 20_memory.md rules R43, R44: FBWR inside the FrameBuffer answers OK, sets exactly the
columns of its byte, and changes nothing else: every other byte, pixel and register is as before. -/
def Obligations.FbwrWritesTheColumnsOfItsByte : Prop :=
  ∀ (s : State) (addr : BitVec 16) (data : Byte), ¬ InterruptWaits s → addr.toNat < fbBytes s.params.toRawParams →
    ∃ t, exec (.fbwr addr data) s = .next t ∧ t = { s with fb := t.fb, resp := [0#8] } ∧
      (∀ a, a ≠ addr.toNat → memRead t a = memRead s a) ∧
      (∀ plane y c, plane < 3 → y < s.params.maxY → c < s.params.sizeX →
        pixel t plane y c =
          if fbAddr s.params.toRawParams plane y (c / 8) = addr.toNat then data.getLsbD (c % 8) else pixel s plane y c)

/-- 45_host_access.md rule R152, 20_memory.md rule R44: FBRD inside the FrameBuffer answers OK and the byte of rule
R43, padding bits as 0, and changes nothing. -/
def Obligations.FbrdAnswersTheColumnsOfItsByte : Prop :=
  ∀ (s : State) (addr : BitVec 16), ¬ InterruptWaits s → addr.toNat < fbBytes s.params.toRawParams →
    ∃ v : Byte, exec (.fbrd addr) s = .next { s with resp := [0#8, v] } ∧
      let p := s.params.toRawParams
      let rb := (p.sizeX + 7) / 8
      let plane := addr.toNat / (p.maxY * rb)
      let y := addr.toNat % (p.maxY * rb) / rb
      let k := addr.toNat % rb
      ∀ j, j < 8 → v.getLsbD j = (decide (8 * k + j < p.sizeX) && pixel s plane y (8 * k + j))

/-- 60_exceptions.md rule R168: BadAddress, code 2, with no state change; FBRD's data byte is 0x00. -/
def Obligations.AddressesOutsideTheFrameBufferAnswerBadAddress : Prop :=
  ∀ (s : State) (addr : BitVec 16), ¬ InterruptWaits s → fbBytes s.params.toRawParams ≤ addr.toNat →
    (∀ data : Byte, exec (.fbwr addr data) s = .next { s with resp := [2#8] }) ∧
    exec (.fbrd addr) s = .next { s with resp := [2#8, 0#8] }

/-- 20_memory.md rule R46: padding bits read as 0 and writes to them are ignored; the column bits read back as
written. -/
def Obligations.AWrittenByteReadsBackWithoutItsPadding : Prop :=
  ∀ (s t : State) (addr : BitVec 16) (data : Byte), addr.toNat < fbBytes s.params.toRawParams →
    exec (.fbwr addr data) s = .next t →
    ∃ v : Byte, exec (.fbrd addr) t = .next { t with resp := [0#8, v] } ∧
      ∀ j, j < 8 →
        v.getLsbD j =
          (decide (8 * (addr.toNat % rowBytes s.params.toRawParams) + j < s.params.sizeX) && data.getLsbD j)

/-- 20_memory.md rule R43: the byte map is a bijection between addresses and (plane, row, byte of the row), by the
formulas given. -/
def Obligations.TheByteMapIsABijection : Prop :=
  ∀ p : Params,
    let rb := (p.sizeX + 7) / 8
    (∀ plane y k, plane < 3 → y < p.maxY → k < rb →
      let a := fbAddr p.toRawParams plane y k
      a = plane * (p.maxY * rb) + y * rb + k ∧ a < fbBytes p.toRawParams ∧
      a / (p.maxY * rb) = plane ∧ a % (p.maxY * rb) / rb = y ∧ a % rb = k) ∧
    (∀ a, a < fbBytes p.toRawParams →
      a / (p.maxY * rb) < 3 ∧ a % (p.maxY * rb) / rb < p.maxY ∧ a % rb < rb ∧
      fbAddr p.toRawParams (a / (p.maxY * rb)) (a % (p.maxY * rb) / rb) (a % rb) = a)

/-- 45_host_access.md rules R153, R154: IMASK and IUNMASK write `int_mask` and nothing else; an interrupt that waited
while masked is deliverable after IUNMASK, and then the main context is held off until the DISPATCH has served it. -/
def Obligations.ImaskAndIunmaskWriteTheMask : Prop :=
  (∀ s : State, ¬ InterruptWaits s →
    exec .imask s = .next { s with intMask := true, resp := [] } ∧
    exec .iunmask s = .next { s with intMask := false, resp := [] }) ∧
  (∀ s : State, s.timer.irqPending = true → s.intMask = true →
    ∃ t u, exec .iunmask s = .next t ∧ exec .imask t = .refused .notEnabled ∧
      exec .dispatch t = .next u ∧ u.timer = { s.timer with irqPending := false } ∧
      exec .imask u = .next { u with intMask := true, resp := [] })

/-- 10_state.md rule R37: the fourteen status registers, each as the number its bits make; RDSR answers OK with it and
changes nothing. -/
def Obligations.RdsrAnswersTheStatusRegisters : Prop :=
  ∀ s : State, ¬ InterruptWaits s →
    let answers (n v : Nat) : Prop :=
      exec (.rdsr (BitVec.ofNat 8 n)) s = .next { s with resp := [0#8, BitVec.ofNat 8 v] }
    let phase : Nat := match s.buzzer.phase with
      | .idle => 0
      | .sounding => 1
      | .shortGap => 2
      | .burstGap => 3
    let osc : Nat := match s.plan.clkOsc with
      | .internal => 0
      | .external => 1
    answers 0x00 (s.timer.irqPending.toNat + 2 * s.intMask.toNat + 4 * s.planValid.toNat) ∧
    answers 0x01 (osc + 2 * s.plan.clkFsel.toNat) ∧
    answers 0x02 s.plan.timPsc.toNat ∧ answers 0x03 s.plan.timArrh.toNat ∧ answers 0x04 s.plan.timArrl.toNat ∧
    answers 0x05 s.rowCur.toNat ∧
    answers 0x06 (phase + 4 * s.buzzer.dbl.toNat + 8 * s.lines.bzOn.toNat) ∧
    answers 0x07 (s.buzzer.elapsed.toNat / 256) ∧ answers 0x08 (s.buzzer.elapsed.toNat % 256) ∧
    answers 0x09 s.buzzer.rptCnt.toNat ∧ answers 0x0A s.buzzer.rptTgt.toNat ∧ answers 0x0B s.buzzer.freq.toNat ∧
    answers 0x0C s.lines.rowSel.toNat ∧
    answers 0x0D (s.lines.sdR.toNat + 2 * s.lines.sdG.toNat + 4 * s.lines.sdB.toNat + 8 * s.lines.shcp.toNat +
      16 * s.lines.stcp.toNat)

/-- 60_exceptions.md rule R169: BadRegister, code 3, for the reserved numbers 0x0E..0xFF, with no state change and the
data byte 0x00. -/
def Obligations.ReservedStatusNumbersAnswerBadRegister : Prop :=
  ∀ (s : State) (n : Byte), ¬ InterruptWaits s → 0x0E ≤ n.toNat →
    exec (.rdsr n) s = .next { s with resp := [3#8, 0#8] }

/-! ### Reset and boot -/

/-- 10_state.md rule R39 and 45_host_access.md rule R156: RESET, always enabled, gives every register of the block its
reset value. The rest is the model's: that RESET empties `resp` is its choice (notes/assumptions/6.md, DESIGN CHOICE),
and that the parameters and the stimulus stream stay is read from rule R40 (notes/assumptions/15.md, DEDUCED). -/
def Obligations.ResetGivesEveryRegisterItsResetValue : Prop :=
  ∀ s : State,
    exec .reset s =
      .next
        { params := s.params
          plan := { clkOsc := .internal, clkFsel := 0#2, timPsc := 0#8, timArrh := 0#8, timArrl := 0#8 }
          planValid := false
          timer := { timCnt := 0#16, timPcnt := 0#8, irqPending := false, tickLost := false }
          intMask := true
          fb := []
          rowCur := 0#8
          buzzer := { phase := .idle, elapsed := 0#16, rptCnt := 0#8, rptTgt := 0#8, dbl := false, freq := 0#8 }
          lines :=
            { sdR := true, sdG := true, sdB := true, shcp := false, stcp := false, rowSel := 0x00#8, bzOn := false }
          dstep := .outside
          nDisp := 0
          outTrace := []
          resp := []
          stim := s.stim } ∧
    ∀ t, exec .reset s = .next t → ∀ plane y c, pixel t plane y c = false

/-- 70_reset_and_hazards.md rules R199, R200 and 30_encoding.md rule R78: BOOT with a supported frequency leads, from
every state, to a configured, unmasked machine at its reset state otherwise. -/
def Obligations.BootConfiguresAndUnmasks : Prop :=
  ∀ (s : State) (osc : Osc) (fsel : Byte), fsel.toNat ≤ 2 →
    ∃ l, (Pseudo.boot osc fsel).expand s = some l ∧ l = [.reset, .config osc fsel, .iunmask] ∧
      runInstrs l s =
        .next { State.resetWith s.params with
          plan := planFor s.params.toRawParams osc fsel
          planValid := true
          intMask := false
          stim := s.stim }

/-- 30_encoding.md rule R78, and what 45_host_access.md rule R158 infers from the operations' rules (the spec marks it
as derived): FBROW writes exactly the three values of its row, under the mask, and unmasks again. -/
def Obligations.FbrowWritesOneWholeRow : Prop :=
  ∀ (s : State) (y r g b : Nat), s.intMask = false → s.timer.irqPending = false → y < s.params.maxY →
    r < 2 ^ s.params.sizeX → g < 2 ^ s.params.sizeX → b < 2 ^ s.params.sizeX →
    ∃ l t, (Pseudo.fbrow y r g b).expand s = some l ∧ l.length = 3 * rowBytes s.params.toRawParams + 2 ∧
      runInstrs l s = .next t ∧ t = { s with fb := t.fb, resp := [] } ∧
      (∀ c, c < s.params.sizeX →
        pixel t 0 y c = r.testBit c ∧ pixel t 1 y c = g.testBit c ∧ pixel t 2 y c = b.testBit c) ∧
      (∀ plane y' c, plane < 3 → y' < s.params.maxY → c < s.params.sizeX → y' ≠ y →
        pixel t plane y' c = pixel s plane y' c)

/-! ### Whole-machine rules -/

/-- 60_exceptions.md rule R166: "An error never changes the state": a HOST operation that answers a status code other
than 0 leaves everything but its response. -/
def Obligations.AnErrorAnswerChangesNoState : Prop :=
  ∀ (i : Instr) (s t : State) (status : Byte) (data : List Byte),
    agentOf i = .host → exec i s = .next t → t.resp = status :: data → status ≠ 0#8 → t = { s with resp := t.resp }

/-- 45_host_access.md rule R157: what no HOST operation writes, and which one writes each thing a HOST may write. -/
def Obligations.HostOperationsWriteOnlyWhatTheyMay : Prop :=
  ∀ (i : Instr) (s t : State), agentOf i = .host → exec i s = .next t →
    t.params = s.params ∧ t.rowCur = s.rowCur ∧ t.timer.irqPending = s.timer.irqPending ∧
    t.timer.tickLost = s.timer.tickLost ∧ t.dstep = s.dstep ∧ t.nDisp = s.nDisp ∧ t.stim = s.stim ∧
    t.lines = { s.lines with bzOn := t.lines.bzOn } ∧
    ((∀ osc fsel, i ≠ .config osc fsel) → t.plan = s.plan ∧ t.planValid = s.planValid ∧ t.timer = s.timer) ∧
    ((∀ freq rpt, i ≠ .reqbuzz freq rpt) →
      t.buzzer = s.buzzer ∧ t.lines = s.lines ∧ t.outTrace = s.outTrace) ∧
    ((∀ addr data, i ≠ .fbwr addr data) → t.fb = s.fb) ∧
    (i ≠ .imask → i ≠ .iunmask → t.intMask = s.intMask)

/-- What 60_exceptions.md rule R174 infers from 41_periodic_interrupt_dispatcher.md rules R101, R102 (the spec marks
it as derived): only IMASK and IUNMASK write `int_mask` (and RESET, which gives every register its reset value); the
interrupt context never changes it, and when the handler returns it is 0. -/
def Obligations.OnlyTheMainContextWritesTheMask : Prop :=
  (∀ (i : Instr) (s t : State), exec i s = .next t → i ≠ .imask → i ≠ .iunmask → i ≠ .reset → t.intMask = s.intMask) ∧
  (∀ s t : State, exec .dispatch s = .next t → t.intMask = false)

/-- 60_exceptions.md rule R172 and 10_state.md rule R21: `irq_pending` is set only by OSC and cleared only by IACK, as
a step of DISPATCH or alone, or by RESET. -/
def Obligations.PendingIsSetByOscAndClearedByIack : Prop :=
  ∀ (i : Instr) (s t : State), exec i s = .next t →
    (s.timer.irqPending = false → t.timer.irqPending = true → ∃ n, i = .osc n) ∧
    (s.timer.irqPending = true → t.timer.irqPending = false → i = .iack ∨ i = .dispatch ∨ i = .reset)

/-- 10_state.md rules R18, R35 and 40_timer_reload_configurator.md rule R98: `plan_valid` and `tick_lost` go back to 0
only by RESET, and no operation but CONFIG and RESET writes a ClockPlan register. -/
def Obligations.PlanAndLostTickLastUntilReset : Prop :=
  ∀ (i : Instr) (s t : State), exec i s = .next t → i ≠ .reset →
    (s.planValid = true → t.planValid = true) ∧ (s.timer.tickLost = true → t.timer.tickLost = true) ∧
    ((∀ osc fsel, i ≠ .config osc fsel) → t.plan = s.plan ∧ t.planValid = s.planValid)

/-- 10_state.md rule R36 and 20_memory.md rule R59: but for RESET an operation only appends to the trace, and every
line takes the level its last event gives it. -/
def Obligations.OperationsAppendTheirEventsToTheTrace : Prop :=
  ∀ (i : Instr) (s t : State), exec i s = .next t → i ≠ .reset →
    ∃ es, t.outTrace = s.outTrace ++ es ∧ t.lines = es.foldl OutputLines.apply s.lines

/-- 42_row_multiplexer_shift_register_driver.md rule R114 and 43_buzzer_sequencer_fsm.md rule R131: nothing but the
data lines, the trace and the HOST's own responses depends on the picture: from two states that differ in it, every
operation is refused in both or leads to two states that differ in it. -/
def Obligations.ThePictureInfluencesOnlyTheDataLines : Prop :=
  ∀ (i : Instr) (s s' : State), SameButPicture s s' →
    (∃ t t', exec i s = .next t ∧ exec i s' = .next t' ∧ SameButPicture t t') ∨
    (∃ r, exec i s = .refused r ∧ exec i s' = .refused r)

/-! ### Invariants -/

/-- 20_memory.md rules R46, R50: between operations the FrameBuffer store is canonical, inside its region and without
padding bits, and every step keeps it so. -/
def Obligations.EveryStepKeepsTheFrameBufferStore : Prop :=
  ∀ s t : State, Between s → FrameBufferOk s → step s = .next t → FrameBufferOk t

/-- 10_state.md rules R15, R19, R20 and 40_timer_reload_configurator.md rule R95: every step keeps the plan registers
those of a CONFIG and the counters in range; without a plan nothing is pending. -/
def Obligations.EveryStepKeepsTheTimerInRange : Prop :=
  ∀ s t : State, Between s → TimerOk s → step s = .next t → TimerOk t

/-- 42_row_multiplexer_shift_register_driver.md rule R122, and what its rule R124 and 10_state.md rule R31 infer (the
spec marks them as derived): every step keeps `row_cur = n_disp mod MAX_Y`, the row-select byte that of the last
tick's row, and the clock and the latch line LOW. -/
def Obligations.EveryStepKeepsTheCursorLaw : Prop :=
  ∀ s t : State, Between s → DisplayOk s → step s = .next t → DisplayOk t

/-- 10_state.md rules R26 to R29 and 43_buzzer_sequencer_fsm.md rule R136, and what its rule R139 infers (the spec
marks it as derived): every step keeps the buzzer counters in their ranges, `bz_dbl` as the phase has it, and the tone
on exactly in Sounding. -/
def Obligations.EveryStepKeepsTheBuzzerRegistersCoherent : Prop :=
  ∀ s t : State, Between s → BuzzerOk s.buzzer → ToneOk s → step s = .next t → BuzzerOk t.buzzer ∧ ToneOk t

/-- What 44_scheduler_tick_invoker.md rule R149 infers from rules R146, R101, R108 (the spec marks it as derived), and
20_memory.md rule R59: every step keeps one SCHED and one IACK event in the trace for each
DISPATCH, and the lines at the levels the trace gives them. -/
def Obligations.EveryStepKeepsTheTraceAccount : Prop :=
  ∀ s t : State, Between s → TraceOk s → step s = .next t → TraceOk t

/-- Everything that holds between operations holds right after RESET, for every parameter set (10_state.md rule R39). -/
def Obligations.TheResetStateSatisfiesTheInvariants : Prop :=
  ∀ (p : Params) (ws : List StimWord), Inv (boot p ws)

/-- Every run from RESET, under every parameter set and every stimulus stream, is in a state that satisfies all the
invariants after every operation (20_memory.md rule R51; the invariants of 10_state.md and of the 4N files). -/
def Obligations.EveryRunSatisfiesTheInvariants : Prop :=
  ∀ (p : Params) (ws : List StimWord) (k : Nat) (s : State), Reaches p ws k s → Inv s ∧ s.params = p
end

