-- ==== Sys2Proof/Laws/State.lean ====
section
/-! SUPPORT. For each update of the state, what it leaves in each field: true by rfl, so that no later proof unfolds a
record update. -/

namespace Sys2Proof.Machine

section emit
variable (e : Event) (s : State)

@[simp] theorem emit_params : (emit e s).params = s.params := rfl
@[simp] theorem emit_plan : (emit e s).plan = s.plan := rfl
@[simp] theorem emit_planValid : (emit e s).planValid = s.planValid := rfl
@[simp] theorem emit_timer : (emit e s).timer = s.timer := rfl
@[simp] theorem emit_intMask : (emit e s).intMask = s.intMask := rfl
@[simp] theorem emit_fb : (emit e s).fb = s.fb := rfl
@[simp] theorem emit_rowCur : (emit e s).rowCur = s.rowCur := rfl
@[simp] theorem emit_buzzer : (emit e s).buzzer = s.buzzer := rfl
@[simp] theorem emit_lines : (emit e s).lines = s.lines.apply e := rfl
@[simp] theorem emit_dstep : (emit e s).dstep = s.dstep := rfl
@[simp] theorem emit_nDisp : (emit e s).nDisp = s.nDisp := rfl
@[simp] theorem emit_outTrace : (emit e s).outTrace = s.outTrace ++ [e] := rfl
@[simp] theorem emit_resp : (emit e s).resp = s.resp := rfl
@[simp] theorem emit_stim : (emit e s).stim = s.stim := rfl

end emit

section respond
variable (r : List Byte) (s : State)

@[simp] theorem respond_params : (respond r s).params = s.params := rfl
@[simp] theorem respond_plan : (respond r s).plan = s.plan := rfl
@[simp] theorem respond_planValid : (respond r s).planValid = s.planValid := rfl
@[simp] theorem respond_timer : (respond r s).timer = s.timer := rfl
@[simp] theorem respond_intMask : (respond r s).intMask = s.intMask := rfl
@[simp] theorem respond_fb : (respond r s).fb = s.fb := rfl
@[simp] theorem respond_rowCur : (respond r s).rowCur = s.rowCur := rfl
@[simp] theorem respond_buzzer : (respond r s).buzzer = s.buzzer := rfl
@[simp] theorem respond_lines : (respond r s).lines = s.lines := rfl
@[simp] theorem respond_dstep : (respond r s).dstep = s.dstep := rfl
@[simp] theorem respond_nDisp : (respond r s).nDisp = s.nDisp := rfl
@[simp] theorem respond_outTrace : (respond r s).outTrace = s.outTrace := rfl
@[simp] theorem respond_resp : (respond r s).resp = r := rfl
@[simp] theorem respond_stim : (respond r s).stim = s.stim := rfl

end respond

section memWrite
variable (a : Nat) (v : Byte) (s : State)

@[simp] theorem memWrite_params : (memWrite a v s).params = s.params := rfl
@[simp] theorem memWrite_plan : (memWrite a v s).plan = s.plan := rfl
@[simp] theorem memWrite_planValid : (memWrite a v s).planValid = s.planValid := rfl
@[simp] theorem memWrite_timer : (memWrite a v s).timer = s.timer := rfl
@[simp] theorem memWrite_intMask : (memWrite a v s).intMask = s.intMask := rfl
@[simp] theorem memWrite_fb : (memWrite a v s).fb = Memory.write s.fb a (v &&& columnMask s.params.toRawParams a) := rfl
@[simp] theorem memWrite_rowCur : (memWrite a v s).rowCur = s.rowCur := rfl
@[simp] theorem memWrite_buzzer : (memWrite a v s).buzzer = s.buzzer := rfl
@[simp] theorem memWrite_lines : (memWrite a v s).lines = s.lines := rfl
@[simp] theorem memWrite_dstep : (memWrite a v s).dstep = s.dstep := rfl
@[simp] theorem memWrite_nDisp : (memWrite a v s).nDisp = s.nDisp := rfl
@[simp] theorem memWrite_outTrace : (memWrite a v s).outTrace = s.outTrace := rfl
@[simp] theorem memWrite_resp : (memWrite a v s).resp = s.resp := rfl
@[simp] theorem memWrite_stim : (memWrite a v s).stim = s.stim := rfl

end memWrite

section setDstep
variable (d : DStep) (s : State)

@[simp] theorem setDstep_params : (setDstep d s).params = s.params := rfl
@[simp] theorem setDstep_plan : (setDstep d s).plan = s.plan := rfl
@[simp] theorem setDstep_planValid : (setDstep d s).planValid = s.planValid := rfl
@[simp] theorem setDstep_timer : (setDstep d s).timer = s.timer := rfl
@[simp] theorem setDstep_intMask : (setDstep d s).intMask = s.intMask := rfl
@[simp] theorem setDstep_fb : (setDstep d s).fb = s.fb := rfl
@[simp] theorem setDstep_rowCur : (setDstep d s).rowCur = s.rowCur := rfl
@[simp] theorem setDstep_buzzer : (setDstep d s).buzzer = s.buzzer := rfl
@[simp] theorem setDstep_lines : (setDstep d s).lines = s.lines := rfl
@[simp] theorem setDstep_dstep : (setDstep d s).dstep = d := rfl
@[simp] theorem setDstep_nDisp : (setDstep d s).nDisp = s.nDisp := rfl
@[simp] theorem setDstep_outTrace : (setDstep d s).outTrace = s.outTrace := rfl
@[simp] theorem setDstep_resp : (setDstep d s).resp = s.resp := rfl
@[simp] theorem setDstep_stim : (setDstep d s).stim = s.stim := rfl

end setDstep

section enterHandler
variable (s : State)

@[simp] theorem enterHandler_params : (enterHandler s).params = s.params := rfl
@[simp] theorem enterHandler_plan : (enterHandler s).plan = s.plan := rfl
@[simp] theorem enterHandler_planValid : (enterHandler s).planValid = s.planValid := rfl
@[simp] theorem enterHandler_timer : (enterHandler s).timer = s.timer := rfl
@[simp] theorem enterHandler_intMask : (enterHandler s).intMask = s.intMask := rfl
@[simp] theorem enterHandler_fb : (enterHandler s).fb = s.fb := rfl
@[simp] theorem enterHandler_rowCur : (enterHandler s).rowCur = s.rowCur := rfl
@[simp] theorem enterHandler_buzzer : (enterHandler s).buzzer = s.buzzer := rfl
@[simp] theorem enterHandler_lines : (enterHandler s).lines = s.lines := rfl
@[simp] theorem enterHandler_dstep : (enterHandler s).dstep = .schtick := rfl
@[simp] theorem enterHandler_nDisp : (enterHandler s).nDisp = s.nDisp := rfl
@[simp] theorem enterHandler_outTrace : (enterHandler s).outTrace = s.outTrace := rfl
@[simp] theorem enterHandler_resp : (enterHandler s).resp = s.resp := rfl
@[simp] theorem enterHandler_stim : (enterHandler s).stim = s.stim := rfl

end enterHandler

section leaveHandler
variable (s : State)

@[simp] theorem leaveHandler_params : (leaveHandler s).params = s.params := rfl
@[simp] theorem leaveHandler_plan : (leaveHandler s).plan = s.plan := rfl
@[simp] theorem leaveHandler_planValid : (leaveHandler s).planValid = s.planValid := rfl
@[simp] theorem leaveHandler_timer : (leaveHandler s).timer = s.timer := rfl
@[simp] theorem leaveHandler_intMask : (leaveHandler s).intMask = s.intMask := rfl
@[simp] theorem leaveHandler_fb : (leaveHandler s).fb = s.fb := rfl
@[simp] theorem leaveHandler_rowCur : (leaveHandler s).rowCur = s.rowCur := rfl
@[simp] theorem leaveHandler_buzzer : (leaveHandler s).buzzer = s.buzzer := rfl
@[simp] theorem leaveHandler_lines : (leaveHandler s).lines = s.lines := rfl
@[simp] theorem leaveHandler_dstep : (leaveHandler s).dstep = .outside := rfl
@[simp] theorem leaveHandler_nDisp : (leaveHandler s).nDisp = s.nDisp + 1 := rfl
@[simp] theorem leaveHandler_outTrace : (leaveHandler s).outTrace = s.outTrace := rfl
@[simp] theorem leaveHandler_resp : (leaveHandler s).resp = s.resp := rfl
@[simp] theorem leaveHandler_stim : (leaveHandler s).stim = s.stim := rfl

end leaveHandler

section pushWord
variable (w : StimWord) (s : State)

@[simp] theorem pushWord_params : (pushWord w s).params = s.params := rfl
@[simp] theorem pushWord_plan : (pushWord w s).plan = s.plan := rfl
@[simp] theorem pushWord_planValid : (pushWord w s).planValid = s.planValid := rfl
@[simp] theorem pushWord_timer : (pushWord w s).timer = s.timer := rfl
@[simp] theorem pushWord_intMask : (pushWord w s).intMask = s.intMask := rfl
@[simp] theorem pushWord_fb : (pushWord w s).fb = s.fb := rfl
@[simp] theorem pushWord_rowCur : (pushWord w s).rowCur = s.rowCur := rfl
@[simp] theorem pushWord_buzzer : (pushWord w s).buzzer = s.buzzer := rfl
@[simp] theorem pushWord_lines : (pushWord w s).lines = s.lines := rfl
@[simp] theorem pushWord_dstep : (pushWord w s).dstep = .outside := rfl
@[simp] theorem pushWord_nDisp : (pushWord w s).nDisp = s.nDisp := rfl
@[simp] theorem pushWord_outTrace : (pushWord w s).outTrace = s.outTrace := rfl
@[simp] theorem pushWord_resp : (pushWord w s).resp = s.resp := rfl
@[simp] theorem pushWord_stim : (pushWord w s).stim = w :: s.stim := rfl

end pushWord

/-- Everything a list of events does: the lines take their last levels, the trace grows by the list. -/
theorem emitAll_eq (es : List Event) (s : State) :
    emitAll es s = { s with lines := es.foldl OutputLines.apply s.lines, outTrace := s.outTrace ++ es } := by
  induction es generalizing s with
  | nil => simp [emitAll]
  | cons e es ih => simp [emitAll, ih, emit]

/-- Everything ROWADV does. -/
theorem rowadvOp_eq (s : State) :
    rowadvOp s =
      { s with
        lines := (rowEvents s).foldl OutputLines.apply s.lines
        outTrace := s.outTrace ++ rowEvents s
        rowCur := nextRow s.params.toRawParams s.rowCur } := by
  simp [rowadvOp, emitAll_eq]

/-- Entering a phase: the buzzer record, the tone and one event. -/
theorem enterPhase_eq (ph : BzPhase) (b : BuzzerState) (s : State) :
    enterPhase ph b s =
      { s with
        buzzer := { b with phase := ph, elapsed := 0#16 }
        lines := { s.lines with bzOn := ph == .sounding }
        outTrace := s.outTrace ++ [.bz (ph == .sounding) b.freq] } := rfl

end Sys2Proof.Machine
end

