-- ==== Sys2Proof/Laws/Dispatcher.lean ====
section
/-! SUPPORT. Everything a tick can do, said once: BZADV as a function of the buzzer registers alone, and DISPATCH as one
record update. -/

namespace Sys2Proof.Machine

/-- One tick of the buzzer registers, and the events it emits (43_buzzer_sequencer_fsm.md rule R131). -/
def bzNext (b : BuzzerState) : BuzzerState × List Event :=
  match b.phase with
  | .idle => (b, [])
  | .sounding =>
    if tOn ≤ (b.elapsed + 1#16).toNat then
      if b.dbl then
        (({ b with phase := .burstGap, elapsed := 0#16, dbl := false } : BuzzerState), [.bz false b.freq])
      else (({ b with phase := .shortGap, elapsed := 0#16, dbl := true } : BuzzerState), [.bz false b.freq])
    else ({ b with elapsed := b.elapsed + 1#16 }, [])
  | .shortGap =>
    if tShort ≤ (b.elapsed + 1#16).toNat then ({ b with phase := .sounding, elapsed := 0#16 }, [.bz true b.freq])
    else ({ b with elapsed := b.elapsed + 1#16 }, [])
  | .burstGap =>
    if tBurst ≤ (b.elapsed + 1#16).toNat then
      if b.rptTgt.toNat ≤ (b.rptCnt + 1#8).toNat then
        (({ b with phase := .idle, elapsed := 0#16, rptCnt := b.rptCnt + 1#8 } : BuzzerState), [.bz false b.freq])
      else
        (({ b with phase := .sounding, elapsed := 0#16, rptCnt := b.rptCnt + 1#8 } : BuzzerState),
          [.bz true b.freq])
    else ({ b with elapsed := b.elapsed + 1#16 }, [])

/-- Everything BZADV does: the buzzer registers take their next values, and at most one event goes out. -/
theorem bzadvOp_eq (s : State) :
    bzadvOp s =
      { s with
        buzzer := (bzNext s.buzzer).1
        lines := (bzNext s.buzzer).2.foldl OutputLines.apply s.lines
        outTrace := s.outTrace ++ (bzNext s.buzzer).2 } := by
  rcases hb : s.buzzer with ⟨ph, el, rc, rt, db, fr⟩
  cases ph <;> simp only [bzadvOp, hb, bzNext, phaseTick]
  case idle =>
    rw [← hb]
    simp
  case sounding =>
    split
    · simp only [endSounding, hb]
      split <;> simp [enterPhase, emit, OutputLines.apply]
    · simp
  case shortGap =>
    split
    · simp [endShortGap, hb, enterPhase, emit, OutputLines.apply]
    · simp
  case burstGap =>
    split
    · simp only [endBurstGap, hb]
      split <;> simp [enterPhase, emit, OutputLines.apply]
    · simp

/-- A tick of the buzzer emits nothing or one BZ event with the stored frequency selector, which writes the tone only.
-/
theorem bzNext_events (b : BuzzerState) :
    (bzNext b).2 = [] ∨ (bzNext b).2 = [.bz ((bzNext b).1.phase == .sounding) b.freq] := by
  rcases b with ⟨ph, el, rc, rt, db, fr⟩
  cases ph <;> simp only [bzNext]
  case idle => simp
  case sounding =>
    split
    · split <;> exact .inr rfl
    · simp
  case shortGap =>
    split
    · exact .inr rfl
    · simp
  case burstGap =>
    split
    · split <;> exact .inr rfl
    · simp

/-- A tick of the buzzer keeps the frequency selector and the repeat target. -/
theorem bzNext_keeps (b : BuzzerState) : (bzNext b).1.freq = b.freq ∧ (bzNext b).1.rptTgt = b.rptTgt := by
  rcases b with ⟨ph, el, rc, rt, db, fr⟩
  cases ph <;> simp only [bzNext] <;> (try split) <;> (try split) <;> simp

/-- The row's events depend on the parameters, the FrameBuffer, the cursor and the row-select byte only. -/
theorem rowEvents_congr {s t : State} (hp : s.params = t.params) (hf : s.fb = t.fb) (hr : s.rowCur = t.rowCur)
    (hl : s.lines.rowSel = t.lines.rowSel) : rowEvents s = rowEvents t := by
  have h : columnEvents s s.rowCur.toNat = columnEvents t t.rowCur.toNat := by
    funext c
    simp [columnEvents, pixel, memRead, hp, hf, hr]
  rw [rowEvents, rowEvents, h, hp, hr, hl]

/-- The events of one tick (41_periodic_interrupt_dispatcher.md rule R101): SCHED, zero or one BZ, the row's events,
IACK. -/
def tickEvents (s : State) : List Event := .sched :: ((bzNext s.buzzer).2 ++ rowEvents s ++ [.iack])

/-- Everything DISPATCH does. -/
theorem dispatchOp_eq (s : State) :
    dispatchOp s =
      { s with
        timer := { s.timer with irqPending := false }
        buzzer := (bzNext s.buzzer).1
        lines := (tickEvents s).foldl OutputLines.apply s.lines
        outTrace := s.outTrace ++ tickEvents s
        rowCur := nextRow s.params.toRawParams s.rowCur
        dstep := .outside
        nDisp := s.nDisp + 1 } := by
  have hsel : ((bzNext s.buzzer).2.foldl OutputLines.apply s.lines).rowSel = s.lines.rowSel := by
    rcases bzNext_events s.buzzer with h | h <;> rw [h] <;> rfl
  have hrow : ∀ d tr,
      rowEvents { s with
        buzzer := (bzNext s.buzzer).1
        lines := (bzNext s.buzzer).2.foldl OutputLines.apply s.lines
        dstep := d
        outTrace := tr } = rowEvents s := fun d tr => rowEvents_congr rfl rfl rfl hsel
  simp only [dispatchOp, schtickOp, enterHandler, setDstep, emit, bzadvOp_eq, rowadvOp_eq, hrow, iackOp, leaveHandler,
    tickEvents, OutputLines.apply]
  simp [List.foldl_append, OutputLines.apply]

end Sys2Proof.Machine
end

