-- ==== Sys2Proof/Laws/Memory.lean ====
section
/-! SUPPORT. The laws of the canonical byte store: what a read after a write gives, and that a write keeps the canonical
form. -/

namespace Sys2Proof.Machine

@[simp] theorem Memory.read_nil (x : Nat) : Memory.read [] x = 0#8 := rfl

theorem Memory.read_cons (c : Host.Cell) (m : Memory) (x : Nat) :
    Memory.read (c :: m) x = if x = c.1 then c.2 else Memory.read m x := rfl

/-- A byte that no cell lists reads as 0. -/
theorem Memory.read_of_unlisted {m : Memory} {x : Nat} (h : ∀ c ∈ m, c.1 ≠ x) : Memory.read m x = 0#8 := by
  induction m with
  | nil => rfl
  | cons c m ih =>
    have hc : x ≠ c.1 := fun e => h c (by simp) e.symm
    rw [Memory.read_cons, if_neg hc]
    exact ih fun d hd => h d (by simp [hd])

theorem Memory.read_filter_other {m : Memory} {x y : Nat} (h : y ≠ x) :
    Memory.read (m.filter fun c => c.1 != x) y = Memory.read m y := by
  induction m with
  | nil => rfl
  | cons c m ih =>
    by_cases hc : c.1 = x
    · have hy : y ≠ c.1 := fun e => h (e.trans hc)
      simp [hc, Memory.read_cons, h, ih]
    · simp [hc, Memory.read_cons, ih]

theorem Memory.read_place_other {c : Host.Cell} {m : Memory} {y : Nat} (h : y ≠ c.1) :
    Memory.read (Memory.place c m) y = Memory.read m y := by
  induction m with
  | nil => simp [Memory.place, Memory.read_cons, h]
  | cons d m ih =>
    rw [Memory.place]
    split
    · simp [Memory.read_cons, h]
    · simp [Memory.read_cons, ih]

theorem Memory.read_place_same {c : Host.Cell} {m : Memory} (h : ∀ d ∈ m, d.1 ≠ c.1) :
    Memory.read (Memory.place c m) c.1 = c.2 := by
  induction m with
  | nil => simp [Memory.place, Memory.read_cons]
  | cons d m ih =>
    have hd : c.1 ≠ d.1 := fun e => h d (by simp) e.symm
    rw [Memory.place]
    split
    · simp [Memory.read_cons]
    · rw [Memory.read_cons, if_neg hd]
      exact ih fun e he => h e (by simp [he])

/-- A read of the address written gives the byte written. -/
theorem Memory.read_write_same (m : Memory) (x : Nat) (v : Byte) : Memory.read (Memory.write m x v) x = v := by
  have hf : ∀ c ∈ m.filter (fun c => c.1 != x), c.1 ≠ x := by simp
  unfold Memory.write
  split
  · rename_i hv
    rw [hv]
    exact Memory.read_of_unlisted hf
  · exact Memory.read_place_same (c := (x, v)) hf

/-- A write leaves the byte of every other address alone. -/
theorem Memory.read_write_other {m : Memory} {x y : Nat} {v : Byte} (h : y ≠ x) :
    Memory.read (Memory.write m x v) y = Memory.read m y := by
  unfold Memory.write
  split
  · exact Memory.read_filter_other h
  · rw [Memory.read_place_other (by exact h), Memory.read_filter_other h]

theorem Memory.mem_place {c d : Host.Cell} {m : Memory} : d ∈ Memory.place c m ↔ d = c ∨ d ∈ m := by
  induction m with
  | nil => simp [Memory.place]
  | cons e m ih =>
    rw [Memory.place]
    split
    · simp
    · simp [ih, or_left_comm]

/-- The cells after a write: the one written, if its byte is not 0, and those of the other addresses. -/
theorem Memory.mem_write {m : Memory} {x : Nat} {v : Byte} {d : Host.Cell} :
    d ∈ Memory.write m x v ↔ (v ≠ 0#8 ∧ d = (x, v)) ∨ (d ∈ m ∧ d.1 ≠ x) := by
  unfold Memory.write
  split
  · rename_i hv
    simp [hv]
  · rename_i hv
    simp [hv, Memory.mem_place]

theorem Memory.place_pairwise {c : Host.Cell} {m : Memory} (hm : m.Pairwise fun a b => a.1 < b.1)
    (h : ∀ d ∈ m, d.1 ≠ c.1) : (Memory.place c m).Pairwise fun a b => a.1 < b.1 := by
  induction m with
  | nil => simp [Memory.place]
  | cons e m ih =>
    rw [List.pairwise_cons] at hm
    have he : e.1 ≠ c.1 := h e (by simp)
    rw [Memory.place]
    split
    · rename_i hlt
      refine List.pairwise_cons.2 ⟨?_, List.pairwise_cons.2 hm⟩
      intro d hd
      rcases List.mem_cons.1 hd with rfl | hd
      · exact hlt
      · exact Nat.lt_trans hlt (hm.1 d hd)
    · rename_i hge
      refine List.pairwise_cons.2 ⟨?_, ih hm.2 fun d hd => h d (by simp [hd])⟩
      intro d hd
      rcases Memory.mem_place.1 hd with rfl | hd
      · omega
      · exact hm.1 d hd

/-- The empty store is canonical. -/
theorem Memory.wf_nil : Memory.wf [] := by simp [Memory.wf]

/-- A write keeps the canonical form. -/
theorem Memory.wf_write {m : Memory} (h : Memory.wf m) (x : Nat) (v : Byte) : Memory.wf (Memory.write m x v) := by
  refine ⟨?_, ?_⟩
  · unfold Memory.write
    split
    · exact h.1.filter _
    · exact Memory.place_pairwise (h.1.filter _) (by simp)
  · intro c hc
    rcases Memory.mem_write.1 hc with ⟨hv, rfl⟩ | ⟨hc, _⟩
    · exact hv
    · exact h.2 c hc

/-- The FrameBuffer of a machine after RESET is canonical. -/
theorem reset_fb_wf (p : Params) : Memory.wf (State.resetWith p).fb := Memory.wf_nil

/-- FBWR's primitive keeps the canonical form. -/
theorem memWrite_wf {s : State} (h : Memory.wf s.fb) (a : Nat) (v : Byte) : Memory.wf (memWrite a v s).fb :=
  Memory.wf_write h a _

/-- `MemRead` of the address that `MemWrite` wrote: the column bits of the byte written. -/
theorem memRead_memWrite_same (s : State) (a : Nat) (v : Byte) :
    memRead (memWrite a v s) a = v &&& columnMask s.params.toRawParams a := by
  simp [memRead, memWrite, Memory.read_write_same, BitVec.and_assoc]

/-- `MemRead` of any other address is as before. -/
theorem memRead_memWrite_other (s : State) {a b : Nat} (v : Byte) (h : b ≠ a) :
    memRead (memWrite a v s) b = memRead s b := by
  simp [memRead, memWrite, Memory.read_write_other h]

/-- Which bits of a byte are columns (20_memory.md rule R46). -/
theorem columnMask_getLsbD (p : RawParams) (a j : Nat) :
    (columnMask p a).getLsbD j = (decide (j < 8) && decide (8 * (a % rowBytes p) + j < p.sizeX)) := by
  rw [columnMask, BitVec.getLsbD_ofNat, Nat.testBit_two_pow_sub_one, Bool.eq_iff_iff]
  simp only [Bool.and_eq_true, decide_eq_true_eq]
  omega

end Sys2Proof.Machine
end

