-- ==== Sys2Proof/Laws/Ops.lean ====
section
/-! SUPPORT. Inversion lemmas: what an answer of a shared operation, of a meaning or of a step says. -/

namespace Sys2Proof.Machine

/-- Everything `perform` can answer with a next state. -/
theorem perform_next_iff {i : Instr} {op : State → State} {s t : State} :
    perform i op s = .next t ↔ enabled i s = true ∧ t = op s := by
  unfold perform
  split
  · rename_i h
    constructor
    · intro e
      cases e
      exact ⟨h, rfl⟩
    · rintro ⟨-, rfl⟩
      rfl
  · rename_i h
    constructor
    · intro e
      cases e
    · rintro ⟨h', -⟩
      exact absurd h' h

theorem perform_of_enabled {i : Instr} {op : State → State} {s : State} (h : enabled i s = true) :
    perform i op s = .next (op s) := if_pos h

theorem perform_of_not_enabled {i : Instr} {op : State → State} {s : State} (h : enabled i s = false) :
    perform i op s = .refused .notEnabled := by
  unfold perform
  rw [h]
  rfl

/-- The effect of an operation on the state, apart from its enabling condition. -/
def effect : Instr → State → State
  | .config osc fsel => configOp osc fsel
  | .reqbuzz freq rpt => reqbuzzOp freq rpt
  | .fbwr addr data => fbwrOp addr data
  | .fbrd addr => fbrdOp addr
  | .imask => imaskOp
  | .iunmask => iunmaskOp
  | .rdsr n => rdsrOp n
  | .osc n => oscOp n
  | .dispatch => dispatchOp
  | .reset => resetOp
  | .schtick => schtickOp
  | .bzadv => bzadvOp
  | .rowadv => rowadvOp
  | .iack => iackOp

/-- Everything `exec` can answer with a next state: a well-formed, enabled operation, and its effect. -/
theorem exec_next_iff {i : Instr} {s t : State} :
    exec i s = .next t ↔ i.wf = true ∧ enabled i s = true ∧ t = effect i s := by
  cases i with
  | osc n =>
    by_cases hn : n = 0#16
    · simp [exec, execOsc, hn, Instr.wf]
    · simp [exec, execOsc, hn, Instr.wf, effect, perform_next_iff]
  | _ => simp [exec, execConfig, execReqbuzz, execFbwr, execFbrd, execImask, execIunmask, execRdsr, execDispatch, execReset,
      execSchtick, execBzadv, execRowadv, execIack, perform_next_iff, Instr.wf, effect]

@[simp] theorem andThen_next (f : State → Answer) (s : State) : Answer.andThen f (.next s) = f s := rfl

/-- Everything `andThen` can answer with a next state. -/
theorem andThen_next_iff {f : State → Answer} {a : Answer} {t : State} :
    Answer.andThen f a = .next t ↔ ∃ s, a = .next s ∧ f s = .next t := by
  cases a with
  | next s => simp
  | fault r => simp [Answer.andThen]
  | refused r => simp [Answer.andThen]

/-- Everything `thenDo` can answer with a next state. -/
theorem thenDo_next_iff {f : State → State} {a : Answer} {t : State} :
    Answer.thenDo f a = .next t ↔ ∃ s, a = .next s ∧ t = f s := by
  cases a with
  | next s => simp [Answer.thenDo, eq_comm]
  | fault r => simp [Answer.thenDo]
  | refused r => simp [Answer.thenDo]

@[simp] theorem DStep.micro_outside : DStep.outside.micro = none := rfl
@[simp] theorem DStep.micro_schtick : DStep.schtick.micro = some .schtick := rfl
@[simp] theorem DStep.micro_bzadv : DStep.bzadv.micro = some .bzadv := rfl
@[simp] theorem DStep.micro_rowadv : DStep.rowadv.micro = some .rowadv := rfl
@[simp] theorem DStep.micro_iack : DStep.iack.micro = some .iack := rfl

/-- A decoded word is never a micro-operation. -/
theorem decodeStimulus_isStimulus {w : StimWord} {i : Instr} (h : decodeStimulus w = .ok i) : i.isStimulus = true := by
  unfold decodeStimulus at h
  split at h
  · cases h
  · split at h <;> (try unfold ifZero at h) <;> (try split at h) <;> (try split at h) <;> cases h <;> rfl

/-- Everything a step between operations can answer with a next state: the next word decodes and its operation is
performed. -/
theorem step_next_between {s t : State} (hb : s.dstep = .outside) (h : step s = .next t) :
    ∃ w rest i, s.stim = w :: rest ∧ decodeStimulus w = .ok i ∧ exec i { s with stim := rest } = .next t := by
  simp only [step, hb, DStep.micro_outside] at h
  rcases hs : s.stim with _ | ⟨w, rest⟩
  · simp [fetch, hs] at h
  · simp only [fetch, hs] at h
    rcases hd : decodeStimulus w with e | i
    · simp [hd] at h
    · simp only [hd] at h
      exact ⟨w, rest, i, rfl, hd, h⟩

end Sys2Proof.Machine
end

