-- ==== Sys2Proof/Laws/Params.lean ====
section
/-! SUPPORT. What a checked parameter set guarantees (00_scope.md rule R8). -/

namespace Sys2Proof

theorem Params.maxY_pos (p : Params) : 1 ≤ p.maxY := by
  have h := p.ok
  simp only [Machine.paramsOk, Bool.and_eq_true, decide_eq_true_eq] at h
  omega

theorem Params.maxY_le (p : Params) : p.maxY ≤ 128 := by
  have h := p.ok
  simp only [Machine.paramsOk, Bool.and_eq_true, decide_eq_true_eq] at h
  omega

theorem Params.sizeX_pos (p : Params) : 1 ≤ p.sizeX := by
  have h := p.ok
  simp only [Machine.paramsOk, Bool.and_eq_true, decide_eq_true_eq] at h
  omega

theorem Params.sizeX_le (p : Params) : p.sizeX ≤ 1360 := by
  have h := p.ok
  simp only [Machine.paramsOk, Bool.and_eq_true, decide_eq_true_eq] at h
  omega

theorem Params.fbBytes_le (p : Params) : Machine.fbBytes p.toRawParams ≤ 65536 := by
  have h := p.ok
  simp only [Machine.paramsOk, Bool.and_eq_true, decide_eq_true_eq] at h
  omega

theorem Params.rowBytes_pos (p : Params) : 1 ≤ Machine.rowBytes p.toRawParams := by
  have h := p.sizeX_pos
  unfold Machine.rowBytes
  omega

theorem Params.planeBytes_pos (p : Params) : 1 ≤ Machine.planeBytes p.toRawParams :=
  Nat.mul_pos p.maxY_pos p.rowBytes_pos

/-- Every supported (oscillator, frequency) pair meets rule R7 and rule R8 item 3. -/
theorem Params.pair_ok (p : Params) (osc : Osc) {fsel : Nat} (h : fsel ≤ 2) :
    Machine.pairOk p.toRawParams osc fsel = true := by
  have hp := p.ok
  simp only [Machine.paramsOk, Bool.and_eq_true] at hp
  match fsel, h with
  | 0, _ => cases osc <;> simp_all
  | 1, _ => cases osc <;> simp_all
  | 2, _ => cases osc <;> simp_all

/-- The divisor is in 1..255 and the reload value fits 16 bits. -/
theorem Params.pair_bounds (p : Params) (osc : Osc) {fsel : Nat} (h : fsel ≤ 2) :
    1 ≤ Machine.pscDiv p.toRawParams osc fsel ∧ Machine.pscDiv p.toRawParams osc fsel ≤ 255 ∧
      1 ≤ Machine.periodUnits p.toRawParams osc fsel ∧ Machine.periodUnits p.toRawParams osc fsel ≤ 65536 := by
  have hp := p.pair_ok osc h
  simp only [Machine.pairOk, Bool.and_eq_true, decide_eq_true_eq] at hp
  omega

/-- `clk_fsel <- fsel[1:0]` loses nothing of a supported request, and the register never holds 3. -/
theorem Machine.planFor_clkFsel {p : RawParams} {osc : Osc} {fsel : Byte} (h : Machine.supportedFsel fsel = true) :
    (Machine.planFor p osc fsel).clkFsel.setWidth 8 = fsel ∧ (Machine.planFor p osc fsel).clkFsel ≠ 3#2 := by
  have key : ∀ f : Byte, Machine.supportedFsel f = true →
      (f.extractLsb' 0 2).setWidth 8 = f ∧ f.extractLsb' 0 2 ≠ 3#2 := by decide
  exact key fsel h

/-- The reload value is its two bytes (10_state.md rule R17). -/
theorem Machine.reloadOf_toNat (c : Machine.ClockPlan) :
    (Machine.reloadOf c).toNat = c.timArrh.toNat * 256 + c.timArrl.toNat := by
  have h := Nat.two_pow_add_eq_or_of_lt (i := 8) c.timArrl.isLt c.timArrh.toNat
  rw [Machine.reloadOf, BitVec.toNat_append, Nat.shiftLeft_eq, Nat.mul_comm]
  simpa [Nat.mul_comm] using h.symm

/-- The prescaler and reload registers of a plan hold the divisor and the reload value of rule R88. -/
theorem Machine.planFor_values (p : Params) (osc : Osc) {fsel : Byte} (h : Machine.supportedFsel fsel = true) :
    (Machine.planFor p.toRawParams osc fsel).timPsc.toNat = Machine.pscDiv p.toRawParams osc fsel.toNat ∧
      (Machine.reloadOf (Machine.planFor p.toRawParams osc fsel)).toNat =
        Machine.reloadValue p.toRawParams osc fsel.toNat := by
  have hf : fsel.toNat ≤ 2 := by simpa [Machine.supportedFsel] using h
  obtain ⟨h1, h2, h3, h4⟩ := p.pair_bounds osc hf
  refine ⟨?_, ?_⟩
  · simp only [Machine.planFor, BitVec.toNat_ofNat]
    omega
  · have e : Machine.reloadOf (Machine.planFor p.toRawParams osc fsel) =
        BitVec.ofNat 16 (Machine.reloadValue p.toRawParams osc fsel.toNat) := by
      simp only [Machine.reloadOf, Machine.planFor]
      apply BitVec.eq_of_getLsbD_eq
      intro i hi
      simp only [BitVec.getLsbD_append, BitVec.getLsbD_extractLsb']
      by_cases h8 : i < 8
      · simp [h8]
      · have : i - 8 < 8 := by omega
        have e8 : 8 + (i - 8) = i := by omega
        simp [h8, this, e8]
    rw [e, BitVec.toNat_ofNat]
    unfold Machine.reloadValue
    omega

end Sys2Proof
end

