-- ==== Sys2Proof/Laws/PerInstr.lean ====
section
/-! SUPPORT. The families of LAWS.json: one lemma for each constructor of `Instr`. -/

namespace Sys2Proof.Laws.EncodesItsRow

/-- The mask and the match value of a constructor's row of spec/opcode_table.json. -/
def row : Instr → Nat × Nat
  | .config _ _ => (0xFFFFFE00, 0x10000000)
  | .reqbuzz _ _ => (0xFFFF0000, 0x20000000)
  | .fbwr _ _ => (0xFF000000, 0x30000000)
  | .fbrd _ => (0xFF0000FF, 0x40000000)
  | .imask => (0xFFFFFFFF, 0x50000000)
  | .iunmask => (0xFFFFFFFF, 0x60000000)
  | .rdsr _ => (0xFFFF00FF, 0x70000000)
  | .osc _ => (0xFF0000FF, 0x80000000)
  | .dispatch => (0xFFFFFFFF, 0x90000000)
  | .reset => (0xFFFFFFFF, 0xF0000000)
  | .schtick => (0x7, 0x1)
  | .bzadv => (0x7, 0x2)
  | .rowadv => (0x7, 0x3)
  | .iack => (0x7, 0x4)

/-- The bits of an operation's code agree with its row of the opcode table in every bit that the row fixes. -/
def Statement (i : Instr) : Prop :=
  match encode i with
  | .stimulus w => w &&& BitVec.ofNat 32 (row i).1 = BitVec.ofNat 32 (row i).2
  | .micro c => c &&& BitVec.ofNat 3 (row i).1 = BitVec.ofNat 3 (row i).2

/-- A word of format H agrees with a mask and a value exactly when its operand parts do. -/
theorem wordH_and (op : BitVec 4) (a : BitVec 16) (b : Byte) (mo mz : BitVec 4) (ma : BitVec 16) (mb : Byte) :
    wordH op a b &&& (mo ++ mz ++ ma ++ mb) = (op &&& mo) ++ (0#4) ++ (a &&& ma) ++ (b &&& mb) := by
  have h : (op ++ (0#4) ++ a ++ b) &&& (mo ++ mz ++ ma ++ mb) = (op &&& mo) ++ (0#4) ++ (a &&& ma) ++ (b &&& mb) := by
    simp only [BitVec.and_append, BitVec.zero_and]
  exact h

/-- The high half of an operand A whose high byte is 0. -/
theorem zero_append_and (x : Byte) : ((0#8) ++ x) &&& 0xFF00#16 = 0#16 := by
  rw [show (0xFF00#16) = (0xFF#8) ++ (0x00#8) by rfl, BitVec.and_append]
  simp

theorem config (osc : Osc) (fsel : Byte) : Statement (.config osc fsel) := by
  have h := wordH_and 0x1#4 ((0#15) ++ osc.code) fsel 0xF#4 0xF#4 0xFFFE#16 0x00#8
  simp only [Statement, encode, row]
  refine h.trans ?_
  cases osc <;> simp [Osc.code]

theorem reqbuzz (freq rpt : Byte) : Statement (.reqbuzz freq rpt) := by
  have h := wordH_and 0x2#4 ((0#8) ++ freq) rpt 0xF#4 0xF#4 0xFF00#16 0x00#8
  simp only [Statement, encode, row]
  refine h.trans ?_
  rw [zero_append_and]
  simp

theorem fbwr (addr : BitVec 16) (data : Byte) : Statement (.fbwr addr data) := by
  have h := wordH_and 0x3#4 addr data 0xF#4 0xF#4 0x0000#16 0x00#8
  simp only [Statement, encode, row]
  refine h.trans ?_
  simp

theorem fbrd (addr : BitVec 16) : Statement (.fbrd addr) := by
  have h := wordH_and 0x4#4 addr 0#8 0xF#4 0xF#4 0x0000#16 0xFF#8
  simp only [Statement, encode, row]
  refine h.trans ?_
  simp

theorem imask : Statement .imask := rfl

theorem iunmask : Statement .iunmask := rfl

theorem rdsr (n : Byte) : Statement (.rdsr n) := by
  have h := wordH_and 0x7#4 ((0#8) ++ n) 0#8 0xF#4 0xF#4 0xFF00#16 0xFF#8
  simp only [Statement, encode, row]
  refine h.trans ?_
  rw [zero_append_and]
  simp

theorem osc (n : BitVec 16) : Statement (.osc n) := by
  have h := wordH_and 0x8#4 n 0#8 0xF#4 0xF#4 0x0000#16 0xFF#8
  simp only [Statement, encode, row]
  refine h.trans ?_
  simp

theorem dispatch : Statement .dispatch := rfl

theorem reset : Statement .reset := rfl

theorem schtick : Statement .schtick := rfl

theorem bzadv : Statement .bzadv := rfl

theorem rowadv : Statement .rowadv := rfl

theorem iack : Statement .iack := rfl

end Sys2Proof.Laws.EncodesItsRow
end

