-- ==== Sys2Proof/Laws/Timer.lean ====
section
/-! SUPPORT. The timer's jump is its cycles: `timerRun` is `timerCycles` for every divisor, reload value, count and
register contents (40_timer_reload_configurator.md rules R92, R94). -/

namespace Sys2Proof.Machine

@[simp] theorem timerCycles_zero (psc : BitVec 8) (reload : BitVec 16) (t : TimerRegs) :
    timerCycles psc reload 0 t = t := rfl

theorem timerCycles_succ (psc : BitVec 8) (reload : BitVec 16) (n : Nat) (t : TimerRegs) :
    timerCycles psc reload (n + 1) t = timerCycles psc reload n (timerCycle psc reload t) := rfl

/-- Cycles add up. -/
theorem timerCycles_add (psc : BitVec 8) (reload : BitVec 16) (m n : Nat) (t : TimerRegs) :
    timerCycles psc reload (m + n) t = timerCycles psc reload n (timerCycles psc reload m t) := by
  induction m generalizing t with
  | zero => simp
  | succ m ih => rw [Nat.succ_add, timerCycles_succ, ih, timerCycles_succ]

/-- The place in the period: cycles since the counters were both 0. -/
def timerPlace (psc : BitVec 8) (t : TimerRegs) : Nat := t.timCnt.toNat * psc.toNat + t.timPcnt.toNat

/-- Everything one cycle does to counters in range: the prescaler's phase goes up; or it wraps and the counter goes
up; or both wrap and the timer overflows. -/
theorem timerCycle_cases {psc : BitVec 8} {reload : BitVec 16} {t : TimerRegs}
    (h : countersInRange psc reload t = true) :
    (t.timPcnt.toNat + 1 < psc.toNat ∧ timerCycle psc reload t = { t with timPcnt := t.timPcnt + 1#8 }) ∨
    (t.timPcnt.toNat + 1 = psc.toNat ∧ t.timCnt.toNat < reload.toNat ∧
      timerCycle psc reload t = { t with timPcnt := 0#8, timCnt := t.timCnt + 1#16 }) ∨
    (t.timPcnt.toNat + 1 = psc.toNat ∧ t.timCnt = reload ∧
      timerCycle psc reload t = overflow { t with timPcnt := 0#8, timCnt := 0#16 }) := by
  simp only [countersInRange, Bool.and_eq_true, decide_eq_true_eq] at h
  obtain ⟨hp, hc⟩ := h
  have hlt := psc.isLt
  have h1 : (t.timPcnt + 1#8).toNat = t.timPcnt.toNat + 1 := by
    rw [BitVec.toNat_add]
    simp only [BitVec.toNat_ofNat]
    omega
  by_cases he : t.timPcnt + 1#8 = psc
  · have hn : t.timPcnt.toNat + 1 = psc.toNat := by rw [← h1, he]
    by_cases hr : t.timCnt = reload
    · exact .inr (.inr ⟨hn, hr, by simp [timerCycle, he, hr]⟩)
    · have : t.timCnt.toNat ≠ reload.toNat := fun e => hr (BitVec.eq_of_toNat_eq e)
      exact .inr (.inl ⟨hn, by omega, by simp [timerCycle, he, hr]⟩)
  · have : t.timPcnt.toNat + 1 ≠ psc.toNat := fun e => he (BitVec.eq_of_toNat_eq (h1.trans e))
    exact .inl ⟨by omega, by simp [timerCycle, he]⟩

/-- A cycle keeps the counters in range. -/
theorem timerCycle_inRange {psc : BitVec 8} {reload : BitVec 16} {t : TimerRegs}
    (h : countersInRange psc reload t = true) : countersInRange psc reload (timerCycle psc reload t) = true := by
  have hlt := psc.isLt
  have hr := reload.isLt
  have h0 := h
  simp only [countersInRange, Bool.and_eq_true, decide_eq_true_eq] at h0
  rcases timerCycle_cases h with ⟨hp, e⟩ | ⟨hp, hc, e⟩ | ⟨hp, hc, e⟩ <;> rw [e] <;>
    simp only [countersInRange, overflow, Bool.and_eq_true, decide_eq_true_eq, BitVec.toNat_add, BitVec.toNat_ofNat] <;>
    omega

/-- The registers are determined by the place in the period and the two flags. -/
theorem timerRegs_of_place {psc : BitVec 8} {reload : BitVec 16} {t : TimerRegs}
    (h : countersInRange psc reload t = true) :
    t = { timCnt := BitVec.ofNat 16 (timerPlace psc t / psc.toNat)
          timPcnt := BitVec.ofNat 8 (timerPlace psc t % psc.toNat)
          irqPending := t.irqPending
          tickLost := t.tickLost } := by
  simp only [countersInRange, Bool.and_eq_true, decide_eq_true_eq] at h
  have hp : 0 < psc.toNat := by omega
  have e1 : timerPlace psc t / psc.toNat = t.timCnt.toNat := by
    rw [timerPlace, Nat.mul_comm, Nat.mul_add_div hp, Nat.div_eq_of_lt h.1, Nat.add_zero]
  have e2 : timerPlace psc t % psc.toNat = t.timPcnt.toNat := by
    rw [timerPlace, Nat.mul_comm, Nat.mul_add_mod, Nat.mod_eq_of_lt h.1]
  rw [e1, e2]
  simp

/-- The place is below the period. -/
theorem timerPlace_lt {psc : BitVec 8} {reload : BitVec 16} {t : TimerRegs}
    (h : countersInRange psc reload t = true) : timerPlace psc t < psc.toNat * (reload.toNat + 1) := by
  simp only [countersInRange, Bool.and_eq_true, decide_eq_true_eq] at h
  have : t.timCnt.toNat * psc.toNat ≤ reload.toNat * psc.toNat := Nat.mul_le_mul_right _ h.2
  have e : psc.toNat * (reload.toNat + 1) = reload.toNat * psc.toNat + psc.toNat := by ring
  rw [timerPlace, e]
  omega

/-- The jump over no cycle changes nothing. -/
theorem timerJump_zero {psc : BitVec 8} {reload : BitVec 16} {t : TimerRegs}
    (h : countersInRange psc reload t = true) : timerJump psc reload 0 t = t := by
  have hl := timerPlace_lt h
  have e := timerRegs_of_place h
  rw [timerPlace] at hl
  conv_rhs => rw [e]
  simp only [timerJump, timerPlace, Nat.add_zero, Nat.mod_eq_of_lt hl, Nat.div_eq_of_lt hl]
  simp

/-- One cycle and then a jump is a longer jump. -/
theorem timerJump_cycle {psc : BitVec 8} {reload : BitVec 16} {t : TimerRegs} (n : Nat)
    (h : countersInRange psc reload t = true) :
    timerJump psc reload n (timerCycle psc reload t) = timerJump psc reload (n + 1) t := by
  have h0 := h
  simp only [countersInRange, Bool.and_eq_true, decide_eq_true_eq] at h0
  have hlt := psc.isLt
  have hr := reload.isLt
  rcases timerCycle_cases h with ⟨hp, e⟩ | ⟨hp, hc, e⟩ | ⟨hp, hc, e⟩ <;> rw [e]
  · have e1 : (t.timPcnt + 1#8).toNat = t.timPcnt.toNat + 1 := by
      simp only [BitVec.toNat_add, BitVec.toNat_ofNat]
      omega
    simp only [timerJump, e1]
    rw [show t.timCnt.toNat * psc.toNat + (t.timPcnt.toNat + 1) + n =
      t.timCnt.toNat * psc.toNat + t.timPcnt.toNat + (n + 1) by omega]
  · have e1 : (t.timCnt + 1#16).toNat = t.timCnt.toNat + 1 := by
      simp only [BitVec.toNat_add, BitVec.toNat_ofNat]
      omega
    simp only [timerJump, e1, BitVec.toNat_ofNat, Nat.zero_mod]
    rw [show (t.timCnt.toNat + 1) * psc.toNat + 0 + n =
      t.timCnt.toNat * psc.toNat + t.timPcnt.toNat + (n + 1) by rw [Nat.add_mul]; omega]
  · have hpos : 0 < psc.toNat * (reload.toNat + 1) := Nat.mul_pos (by omega) (by omega)
    have e1 : t.timCnt.toNat * psc.toNat + t.timPcnt.toNat + (n + 1) = n + psc.toNat * (reload.toNat + 1) := by
      rw [hc, show psc.toNat * (reload.toNat + 1) = reload.toNat * psc.toNat + psc.toNat by ring]
      omega
    simp only [timerJump, overflow, BitVec.toNat_ofNat, Nat.zero_mod, Nat.zero_mul, Nat.zero_add, e1,
      Nat.add_mod_right, Nat.add_div_right _ hpos]
    congr 1
    · simp
    · generalize n / (psc.toNat * (reload.toNat + 1)) = q
      cases t.irqPending <;> cases t.tickLost <;> simp <;> (rcases q with _ | q <;> simp)

/-- For counters in range the jump over `n` cycles is the `n` cycles. -/
theorem timerJump_eq_cycles {psc : BitVec 8} {reload : BitVec 16} (n : Nat) {t : TimerRegs}
    (h : countersInRange psc reload t = true) : timerJump psc reload n t = timerCycles psc reload n t := by
  induction n generalizing t with
  | zero => rw [timerJump_zero h, timerCycles_zero]
  | succ n ih => rw [← timerJump_cycle n h, timerCycles_succ, ih (timerCycle_inRange h)]

/-- The timer's run is its cycles, whatever the registers hold. -/
theorem timerRun_eq_cycles (psc : BitVec 8) (reload : BitVec 16) (n : Nat) (t : TimerRegs) :
    timerRun psc reload n t = timerCycles psc reload n t := by
  unfold timerRun
  split
  · exact timerJump_eq_cycles n ‹_›
  · rfl

/-- Any number of cycles keeps the counters in range. -/
theorem timerCycles_inRange {psc : BitVec 8} {reload : BitVec 16} (n : Nat) {t : TimerRegs}
    (h : countersInRange psc reload t = true) : countersInRange psc reload (timerCycles psc reload n t) = true := by
  induction n generalizing t with
  | zero => exact h
  | succ n ih => exact ih (timerCycle_inRange h)

end Sys2Proof.Machine
end

