-- ==== Sys2Proof/Tests/Slice0.lean ====
section
/-! SUPPORT. The author's own tests. Expected results are taken from 95_test_vectors.md (the vector's number stands
beside each test) or written out from the rules; none is the model's own answer. The second half shows, for each
statement with hypotheses, a concrete state and operands that meet them. -/

namespace Sys2Proof.Tests

open Sys2Proof.Machine Sys2Proof.Safety

/-! ### Helpers -/

/-- The answer is a next state with a property. -/
def nextWith (a : Answer) (p : State → Bool) : Bool :=
  match a with
  | .next t => p t
  | .fault _ => false
  | .refused _ => false

/-- The answer is this refusal. -/
def refusedWith (a : Answer) (r : Refusal) : Bool :=
  match a with
  | .next _ => false
  | .fault _ => false
  | .refused q => q == r

theorem next_of_nextWith {a : Answer} (h : nextWith a (fun _ => true) = true) : ∃ t, a = .next t := by
  cases a with
  | next t => exact ⟨t, rfl⟩
  | fault r => cases r
  | refused r => cases h

theorem prop_of_nextWith {a : Answer} {p : State → Bool} (h : nextWith a p = true) :
    ∃ t, a = .next t ∧ p t = true := by
  cases a with
  | next t => exact ⟨t, rfl, h⟩
  | fault r => cases r
  | refused r => cases h

/-- The words of the events in the trace (30_encoding.md rule R72). -/
def traceWords (s : State) : List EventWord := s.outTrace.map Event.word

/-- PS_TINY right after RESET, about to perform one word. -/
def tiny (w : StimWord) : State := boot Params.psTiny [w]

/-- PS_BYTE right after RESET, about to perform one word. -/
def wide (w : StimWord) : State := boot Params.psByte [w]

/-- PS_TINY after BOOT INT, F4K (95_test_vectors.md E1: reload 0x0F9F, divisor 1). -/
def booted (w : StimWord) : State :=
  { tiny w with
    plan := { clkOsc := .internal, clkFsel := 2#2, timPsc := 1#8, timArrh := 0x0F#8, timArrl := 0x9F#8 }
    planValid := true
    intMask := false }

/-- The same with a deliverable interrupt waiting. -/
def waiting (w : StimWord) : State :=
  { booted w with timer := { timCnt := 0#16, timPcnt := 0#8, irqPending := true, tickLost := false } }

/-- The same, inside the handler at a step. -/
def inHandler (d : DStep) : State := { waiting 0#32 with dstep := d }

/-- A state about to perform BZADV with these buzzer registers. -/
def atBzadv (ph : BzPhase) (dbl : Bool) (elapsed : BitVec 16) (cnt tgt : Byte) : State :=
  { inHandler .bzadv with
    buzzer := { phase := ph, elapsed := elapsed, rptCnt := cnt, rptTgt := tgt, dbl := dbl, freq := 7#8 } }

/-! ### Well-formed terms -/

/-- Rule R68: `OSC 0` is no operation; the one ill-formed term of the syntax. -/
theorem test_wf_refuses_osc_zero : (Instr.osc 0#16).wf = false := by decide

theorem test_wf_accepts_osc_one : (Instr.osc 1#16).wf = true := by decide

/-! ### Decoding: words written out bit by bit from 30_encoding.md rules R61 to R70 -/

theorem test_decode_config : decodeStimulus 0b0001_0000_0000000000000001_00000010#32 = .ok (.config .external 2#8) := by
  rfl

theorem test_decode_config_internal :
    decodeStimulus 0b0001_0000_0000000000000000_11111111#32 = .ok (.config .internal 255#8) := by
  rfl

theorem test_decode_reqbuzz : decodeStimulus 0b0010_0000_0000000000000111_00000011#32 = .ok (.reqbuzz 7#8 3#8) := by
  rfl

theorem test_decode_fbwr : decodeStimulus 0b0011_0000_0000000100000011_10000001#32 = .ok (.fbwr 0x0103#16 0x81#8) := by
  rfl

theorem test_decode_fbrd : decodeStimulus 0b0100_0000_1111111111111111_00000000#32 = .ok (.fbrd 0xFFFF#16) := by rfl

theorem test_decode_imask : decodeStimulus 0b0101_0000_0000000000000000_00000000#32 = .ok .imask := by rfl

theorem test_decode_iunmask : decodeStimulus 0b0110_0000_0000000000000000_00000000#32 = .ok .iunmask := by rfl

theorem test_decode_rdsr : decodeStimulus 0b0111_0000_0000000000001101_00000000#32 = .ok (.rdsr 0x0D#8) := by rfl

theorem test_decode_osc : decodeStimulus 0b1000_0000_0011111010000000_00000000#32 = .ok (.osc 16000#16) := by rfl

theorem test_decode_dispatch : decodeStimulus 0b1001_0000_0000000000000000_00000000#32 = .ok .dispatch := by rfl

theorem test_decode_reset : decodeStimulus 0b1111_0000_0000000000000000_00000000#32 = .ok .reset := by rfl

theorem test_decode_schtick : decodeMicro 0b001#3 = .ok .schtick := by rfl

theorem test_decode_bzadv : decodeMicro 0b010#3 = .ok .bzadv := by rfl

theorem test_decode_rowadv : decodeMicro 0b011#3 = .ok .rowadv := by rfl

theorem test_decode_iack : decodeMicro 0b100#3 = .ok .iack := by rfl

theorem test_encode_fbwr : encode (.fbwr 17#16 0xAB#8) = .stimulus 0x300011AB#32 := by decide

/-- V85 to V89 and V91 to V96: every illegal word is refused by name. -/
theorem test_illegal_words :
    [0x00000000#32, 0xFFFFFFFF#32, 0xA0000000#32, 0xE0000001#32, 0x11000000#32, 0x10000200#32, 0x20010000#32,
      0x40000001#32, 0x50000001#32, 0x60000100#32, 0x90000001#32, 0xF0000001#32, 0x70010000#32, 0x70000001#32,
      0x80000000#32, 0x80000101#32].all (fun w => refusedWith (step (tiny w)) .illegalStimulus) = true := by decide

/-- V97, V98: what is not enabled is refused as such. -/
theorem test_not_enabled :
    refusedWith (step (tiny 0x90000000#32)) .notEnabled = true ∧
    [0x30000001#32, 0x70000000#32, 0x50000000#32, 0x10000000#32].all
      (fun w => refusedWith (step (waiting w)) .notEnabled) = true := by decide

/-- The rows of spec/opcode_table.json by their match values, and the step each is placed for. -/
theorem test_table_words :
    [decodeTableWord 32 0x10000000, decodeTableWord 32 0x20000000, decodeTableWord 32 0x30000000,
      decodeTableWord 32 0x40000000, decodeTableWord 32 0x50000000, decodeTableWord 32 0x60000000,
      decodeTableWord 32 0x70000000, decodeTableWord 32 0x80000100, decodeTableWord 32 0x90000000,
      decodeTableWord 32 0xF0000000, decodeTableWord 8 1, decodeTableWord 8 2, decodeTableWord 8 3,
      decodeTableWord 8 4, decodeTableWord 8 0, decodeTableWord 32 0x80000000] =
    [some (.config .internal 0#8), some (.reqbuzz 0#8 0#8), some (.fbwr 0#16 0#8), some (.fbrd 0#16), some .imask,
      some .iunmask, some (.rdsr 0#8), some (.osc 1#16), some .dispatch, some .reset, some .schtick, some .bzadv,
      some .rowadv, some .iack, none, none] := by decide

theorem test_withFetchWord_runs_the_word :
    nextWith (step (State.reset.withFetchWord 32 0x20000703)) (fun t => traceWords t == [0x2107#16]) = true ∧
    nextWith (step (State.reset.withFetchWord 8 1)) (fun t => traceWords t == [0x1000#16]) = true := by decide

/-! ### One step of each operation -/

/-- E1: PS_BYTE, CONFIG EXT, F4K: divisor 16, reload 374 = 0x0176. -/
theorem test_config_programs :
    nextWith (step (wide 0x10000102#32)) (fun t =>
      t.plan.timPsc == 0x10#8 && t.plan.timArrh == 0x01#8 && t.plan.timArrl == 0x76#8 && t.planValid &&
      readStatus t .ckcfg == 0x05#8 && readStatus t .sr == 0x06#8 && t.resp == [0#8]) = true := by decide

/-- V90: a legal word that asks for an unsupported frequency. -/
theorem test_config_unsupported :
    nextWith (step (tiny 0x10000103#32)) (fun t => t.resp == [1#8] && !t.planValid) = true := by decide

/-- V32: restart from the second Sounding; the event goes out although the tone is on. -/
theorem test_reqbuzz_restarts :
    nextWith
      (step { booted 0x20000703#32 with
        buzzer := { phase := .sounding, elapsed := 50#16, rptCnt := 0#8, rptTgt := 3#8, dbl := true, freq := 7#8 } })
      (fun t => readStatus t .bzst == 0x09#8 && t.buzzer.elapsed == 0#16 && traceWords t == [0x2107#16]) = true := by
  decide

/-- V60: the padding bits of the byte are dropped. -/
theorem test_fbwr_drops_padding :
    nextWith (step (tiny 0x300003FF#32)) (fun t => memRead t 3 == 0x0F#8 && t.resp == [0#8]) = true := by decide

/-- V69: address 17 of PS_BYTE is byte 1 of row 2 of the blue plane: columns 8, 9 and 11 are lit. -/
theorem test_fbwr_last_byte :
    nextWith (step (wide 0x300011AB#32)) (fun t =>
      (List.range 12).filter (pixel t 2 2) == [8, 9, 11] && memRead t 16 == 0#8) = true := by decide

/-- V61. -/
theorem test_fbrd_reads :
    nextWith (step { tiny 0x40000300#32 with fb := [(3, 0x0F#8)] }) (fun t => t.resp == [0#8, 0x0F#8]) = true := by
  decide

/-- V65: 6 is the first address outside the FrameBuffer of PS_TINY. -/
theorem test_fbrd_bad_address :
    nextWith (step (tiny 0x40000600#32)) (fun t => t.resp == [2#8, 0x00#8]) = true := by decide

/-- V77. -/
theorem test_imask : nextWith (step (booted 0x50000000#32)) (fun t => readStatus t .sr == 0x06#8) = true := by decide

/-- V79. -/
theorem test_iunmask :
    nextWith (step { booted 0x60000000#32 with intMask := true }) (fun t => readStatus t .sr == 0x04#8) = true := by
  decide

/-- V75: `SR` and `LINES` right after RESET. -/
theorem test_rdsr_at_reset :
    nextWith (step (tiny 0x70000000#32)) (fun t => t.resp == [0#8, 0x02#8]) = true ∧
    nextWith (step (tiny 0x70000D00#32)) (fun t => t.resp == [0#8, 0x07#8]) = true := by decide

/-- V76. -/
theorem test_rdsr_reserved :
    nextWith (step (tiny 0x70000E00#32)) (fun t => t.resp == [3#8, 0x00#8]) = true := by decide

/-- V13, V14: PS_BYTE, INT, F4K: 3983 cycles after V12 are cycle 3999; one more is the overflow. -/
theorem test_osc_prescaler :
    nextWith
      (step { wide 0x800F8F00#32 with
        plan := { clkOsc := .internal, clkFsel := 2#2, timPsc := 16#8, timArrh := 0#8, timArrl := 0xF9#8 }
        planValid := true
        timer := { timCnt := 1#16, timPcnt := 0#8, irqPending := false, tickLost := false } })
      (fun t => t.timer == { timCnt := 249#16, timPcnt := 15#8, irqPending := false, tickLost := false }) = true := by
  decide

/-- V53: two whole periods in one operation; the second overflow is lost. -/
theorem test_osc_two_periods :
    nextWith (step (booted 0x801F4000#32))
      (fun t => t.timer == { timCnt := 0#16, timPcnt := 0#8, irqPending := true, tickLost := true }) = true := by
  decide

/-- V20: the eighteen events of the first tick of PS_TINY with an empty FrameBuffer. -/
theorem test_dispatch_events :
    nextWith (step (waiting 0x90000000#32)) (fun t =>
      traceWords t ==
        [0x1000#16, 0x6000#16, 0x3007#16, 0x4001#16, 0x4000#16, 0x3007#16, 0x4001#16, 0x4000#16, 0x3007#16, 0x4001#16,
          0x4000#16, 0x3007#16, 0x4001#16, 0x4000#16, 0x5001#16, 0x5000#16, 0x6080#16, 0x7000#16] &&
      readStatus t .sr == 0x04#8 && t.rowCur == 1#8 && t.nDisp == 1) = true := by decide

/-- V80. -/
theorem test_reset :
    nextWith
      (step { waiting 0xF0000000#32 with nDisp := 2, rowCur := 1#8, fb := [(0, 1#8)], outTrace := [.sched] })
      (fun t => t == State.resetWith Params.psTiny) = true := by decide

/-- R146. -/
theorem test_schtick : nextWith (exec .schtick (inHandler .schtick)) (fun t => traceWords t == [0x1000#16]) = true := by
  decide

/-- V36. -/
theorem test_bzadv_first_pulse_ends :
    nextWith (exec .bzadv (atBzadv .sounding false 199#16 0#8 3#8)) (fun t =>
      t.buzzer.phase == .shortGap && t.buzzer.dbl && t.buzzer.elapsed == 0#16 && traceWords t == [0x2007#16]) = true := by
  decide

/-- V39, V40: the last unit, and one before it. -/
theorem test_bzadv_unit_ends :
    nextWith (exec .bzadv (atBzadv .burstGap false 1999#16 2#8 3#8)) (fun t =>
      t.buzzer.phase == .idle && t.buzzer.rptCnt == 3#8 && traceWords t == [0x2007#16]) = true ∧
    nextWith (exec .bzadv (atBzadv .burstGap false 1999#16 1#8 3#8)) (fun t =>
      t.buzzer.phase == .sounding && t.buzzer.rptCnt == 2#8 && traceWords t == [0x2107#16]) = true := by decide

/-- E4: PS_TINY, row 1, red 0b0101, green 0b0011, blue 0, `row_sel` = 0x80 before. -/
theorem test_rowadv_events :
    nextWith
      (exec .rowadv { inHandler .rowadv with
        fb := [(1, 0b0101#8), (3, 0b0011#8)]
        rowCur := 1#8
        lines := { (inHandler .rowadv).lines with rowSel := 0x80#8 } })
      (fun t =>
        traceWords t ==
          [0x6000#16, 0x3004#16, 0x4001#16, 0x4000#16, 0x3005#16, 0x4001#16, 0x4000#16, 0x3006#16, 0x4001#16, 0x4000#16,
            0x3007#16, 0x4001#16, 0x4000#16, 0x5001#16, 0x5000#16, 0x6081#16] && t.rowCur == 0#8) = true := by decide

/-- R105, and the interrupt return of R180. -/
theorem test_iack :
    nextWith (exec .iack (inHandler .iack)) (fun t => !t.timer.irqPending && traceWords t == [0x7000#16]) = true ∧
    nextWith (step (inHandler .iack)) (fun t => t.dstep == .outside && t.nDisp == 1) = true := by decide

/-- The parameter sets of rule R9 are configurations of the hardware; a set without rows is not (rule R8). -/
theorem test_parameters :
    nextWith (instantiate RawParams.psByte) (fun t => t == State.resetWith Params.psByte) = true ∧
    refusedWith (instantiate { RawParams.psTiny with maxY := 0 }) .badParameters = true ∧
    refusedWith (instantiate { RawParams.psTiny with pscExt4k := 256 }) .badParameters = true := by decide

/-- Rule R7: a set that gives no divisors has 1 for all six pairs, as PS_TINY has (rule R9). -/
theorem test_default_divisors :
    ({ sizeX := 4, maxY := 2, fIntHz := 16000000, fExtHz := 24000000 } : RawParams) = RawParams.psTiny := by decide

/-! ### Witnesses: for each statement with hypotheses, a concrete state and operands that meet them together, clause by
clause at the boundaries of its ranges. Named after the statement. -/

/-- DISPATCH is about to run, for the last tick of PS_TINY's second refresh. -/
def secondRefresh : State :=
  { waiting 0#32 with
    rowCur := 1#8
    nDisp := 3
    lines := { (waiting 0#32).lines with rowSel := 0x80#8 } }

/-- The last tick of Sounding, the first pulse. -/
def sounding : State :=
  { waiting 0#32 with
    buzzer := { phase := .sounding, elapsed := 199#16, rptCnt := 0#8, rptTgt := 3#8, dbl := false, freq := 7#8 }
    lines := { (waiting 0#32).lines with bzOn := true }
    outTrace := [.bz true 7#8] }

theorem witness_DecodingAnEncodedOperationGivesItBack :
    (Instr.osc 0xFFFF#16).wf = true ∧ (Instr.config .external 255#8).wf = true ∧ Instr.iack.wf = true := by decide

theorem witness_EncodingADecodedCodeGivesItBack :
    decode (.stimulus 0x803E8000#32) = .ok (.osc 16000#16) ∧ decode (.micro 4#3) = .ok .iack := ⟨rfl, rfl⟩

theorem witness_IllegalWordsAreRefused :
    (tiny 0x80000000#32).dstep = .outside ∧ (tiny 0x80000000#32).stim = [0x80000000#32] ∧
    decodeStimulus 0x80000000#32 = .error .oscZero := ⟨rfl, rfl, rfl⟩

theorem witness_WordsOfTheOperationsWithoutOperands : (0x50000001#32).extractLsb' 0 24 ≠ 0#24 := by decide

theorem witness_AStepPerformsTheNextStimulusWord :
    ((booted 0x50000000#32).dstep = .outside ∧ (booted 0x50000000#32).stim = [0x50000000#32] ∧
      decodeStimulus 0x50000000#32 = .ok .imask) ∧
    State.reset.dstep = .outside ∧ State.reset.stim = [] := ⟨⟨rfl, rfl, rfl⟩, rfl, rfl⟩

theorem witness_AStepInsideTheHandlerPerformsItsMicroOperation :
    ((inHandler .schtick).dstep = .schtick ∧ ∃ t, exec .schtick (inHandler .schtick) = .next t) ∧
    ((inHandler .bzadv).dstep = .bzadv ∧ ∃ t, exec .bzadv (inHandler .bzadv) = .next t) ∧
    ((inHandler .rowadv).dstep = .rowadv ∧ ∃ t, exec .rowadv (inHandler .rowadv) = .next t) ∧
    ((inHandler .iack).dstep = .iack ∧ ∃ t, exec .iack (inHandler .iack) = .next t) :=
  ⟨⟨rfl, _, rfl⟩, ⟨rfl, _, rfl⟩, ⟨rfl, _, rfl⟩, rfl, _, rfl⟩

/-- The premise of every statement about DISPATCH. -/
theorem witness_InterruptWaits :
    InterruptWaits (waiting 0#32) ∧ InterruptWaits sounding ∧ InterruptWaits secondRefresh :=
  ⟨⟨rfl, rfl⟩, ⟨rfl, rfl⟩, rfl, rfl⟩

/-- The premise of every statement about a HOST operation: nothing pending, and pending but masked. -/
theorem witness_HostEnabled :
    ¬ InterruptWaits (booted 0#32) ∧ ¬ InterruptWaits { waiting 0#32 with intMask := true } :=
  ⟨fun h => absurd h.1 (by decide), fun h => absurd h.2 (by decide)⟩

theorem witness_OperationsRunExactlyWhenEnabled :
    (1#16 ≠ 0#16) ∧ InterruptWaits (waiting 0#32) ∧ ¬ InterruptWaits (booted 0#32) ∧
    (tiny 0#32).dstep = .outside ∧ (tiny 0#32).stim = [0#32] ∧ decodeStimulus 0#32 = .error .reservedOp :=
  ⟨by decide, ⟨rfl, rfl⟩, witness_HostEnabled.1, rfl, rfl, rfl⟩

theorem witness_MicroOperationsRunExactlyAtTheirStep :
    (inHandler .bzadv).dstep = DStep.ofInstr .bzadv ∧ (tiny 0#32).dstep ≠ DStep.ofInstr .iack ∧
    (inHandler .schtick).dstep ≠ DStep.ofInstr .bzadv := by decide

/-- The least and the greatest supported request, for CONFIG and BOOT. -/
theorem witness_ConfigProgramsThePlanAndRestartsTheTimer :
    ¬ InterruptWaits (booted 0#32) ∧ (0#8).toNat ≤ 2 ∧ (2#8).toNat ≤ 2 :=
  ⟨witness_HostEnabled.1, by decide, by decide⟩

/-- The least and the greatest unsupported request. -/
theorem witness_ConfigOfAnUnsupportedFrequencyChangesNothing :
    ¬ InterruptWaits (booted 0#32) ∧ 2 < (3#8).toNat ∧ 2 < (255#8).toNat :=
  ⟨witness_HostEnabled.1, by decide, by decide⟩

theorem witness_ConfiguredPeriodIsWithinOneCounterUnit :
    ¬ InterruptWaits (wide 0#32) ∧ (0#8).toNat ≤ 2 ∧ (2#8).toNat ≤ 2 :=
  ⟨fun h => absurd h.1 (by decide), by decide, by decide⟩

/-- PS_BYTE after CONFIG INT, F4K, at a place in its period. -/
def wideAt (cnt : BitVec 16) (pcnt : BitVec 8) : State :=
  { wide 0#32 with
    plan := { clkOsc := .internal, clkFsel := 2#2, timPsc := 16#8, timArrh := 0#8, timArrl := 0xF9#8 }
    planValid := true
    timer := { timCnt := cnt, timPcnt := pcnt, irqPending := false, tickLost := false } }

theorem witness_OneOscillatorCycleAdvancesTheTimer :
    ((wideAt 249#16 14#8).planValid = true ∧ 14 < (wideAt 249#16 14#8).plan.timPsc.toNat ∧
      (wideAt 249#16 14#8).timer.timCnt.toNat ≤ 0 * 256 + 249 ∧ 14 + 1 ≠ (wideAt 249#16 14#8).plan.timPsc.toNat) ∧
    ((wideAt 248#16 15#8).timer.timPcnt.toNat + 1 = (wideAt 248#16 15#8).plan.timPsc.toNat ∧
      (wideAt 248#16 15#8).timer.timCnt.toNat ≠ 249) ∧
    (wideAt 249#16 15#8).timer.timPcnt.toNat + 1 = (wideAt 249#16 15#8).plan.timPsc.toNat ∧
      (wideAt 249#16 15#8).timer.timCnt.toNat =
        (wideAt 249#16 15#8).plan.timArrh.toNat * 256 + (wideAt 249#16 15#8).plan.timArrl.toNat := by decide

theorem witness_OscIsRepeatedSingleCycles : (1#16 ≠ 0#16) ∧ (0xFFFF#16 ≠ 0#16) := by decide

theorem witness_WithoutAPlanTheTimerIsStopped :
    (tiny 0#32).planValid = false ∧ (0xFFFF#16 ≠ 0#16) ∧ TimerOk (tiny 0#32) :=
  ⟨rfl, by decide, by unfold TimerOk; decide⟩

/-- No overflow, one, and two, at the first cycle that passes each. -/
theorem witness_OverflowsAreOnePeriodApart :
    (booted 0#32).planValid = true ∧ (booted 0#32).plan.timPsc ≠ 0#8 ∧ (booted 0#32).timer.timCnt = 0#16 ∧
    (booted 0#32).timer.timPcnt = 0#8 ∧ (booted 0#32).timer.irqPending = false ∧
    (booted 0#32).timer.tickLost = false ∧
    (∀ n ∈ [3999#16], n ≠ 0#16) ∧ (∀ n ∈ [3999#16, 1#16], n ≠ 0#16) ∧ (∀ n ∈ [8000#16], n ≠ 0#16) ∧
    3999 / 4000 = 0 ∧ (3999 + 1) / 4000 = 1 ∧ 8000 / 4000 = 2 :=
  ⟨rfl, by decide, rfl, rfl, rfl, rfl, by simp, by simp, by simp, rfl, rfl, rfl⟩

theorem witness_OvfRunsUpToTheNextOverflow :
    (wideAt 6#16 4#8).planValid = true ∧
    (wideAt 6#16 4#8).timer.timPcnt.toNat < (wideAt 6#16 4#8).plan.timPsc.toNat ∧
    (wideAt 6#16 4#8).timer.timCnt.toNat ≤ (reloadOf (wideAt 6#16 4#8).plan).toNat ∧
    (wideAt 6#16 4#8).timer.irqPending = false ∧
    (3899#16 ≠ 0#16) ∧ (3899#16).toNat < cyclesToOverflow (wideAt 6#16 4#8) := by decide

theorem witness_SchtickOnlyCallsTheScheduler : (inHandler .schtick).dstep = .schtick := rfl

theorem witness_IackClearsThePendingFlag : (inHandler .iack).dstep = .iack := rfl

theorem witness_IdleLastsUntilReqbuzz :
    ((inHandler .bzadv).dstep = .bzadv ∧ (inHandler .bzadv).buzzer.phase = .idle) ∧
    ∃ t, exec .dispatch (waiting 0#32) = .next t ∧ (waiting 0#32).buzzer.phase = .idle := by
  obtain ⟨t, h⟩ := next_of_nextWith (a := exec .dispatch (waiting 0#32)) (by decide)
  exact ⟨⟨rfl, rfl⟩, t, h, rfl⟩

/-- The last tick of each phase that ends none. -/
theorem witness_BzadvCountsTicksWithinAPhase :
    ((atBzadv .sounding true 198#16 0#8 1#8).dstep = .bzadv ∧ (198#16).toNat + 1 < 200) ∧
    (atBzadv .shortGap true 198#16 0#8 1#8).buzzer.phase = .shortGap ∧ (1998#16).toNat + 1 < 2000 := by decide

/-- The two cases at the end of BurstGap on either side of their border, and at the top of the count. -/
theorem witness_BzadvEndsAPhaseByTheTable :
    (atBzadv .sounding false 199#16 0#8 1#8).buzzer.elapsed = 199#16 ∧
    (atBzadv .sounding true 199#16 0#8 1#8).buzzer.dbl = true ∧
    (atBzadv .shortGap true 199#16 0#8 1#8).buzzer.phase = .shortGap ∧
    ((atBzadv .burstGap false 1999#16 254#8 255#8).buzzer.rptCnt.toNat < 255 ∧ (255#8).toNat ≤ (254#8).toNat + 1) ∧
    (atBzadv .burstGap false 1999#16 253#8 255#8).buzzer.rptCnt.toNat + 1 < (255#8).toNat := by decide

/-- A pattern, and a tick of it with other operations between. -/
theorem witness_TheBuzzerFollowsItsTimeline :
    ∃ s0 s1, (booted 0#32).dstep = .outside ∧ exec (.reqbuzz 7#8 3#8) (booted 0#32) = .next s0 ∧
      (∀ i ∈ [Instr.imask, .osc 4000#16, .iunmask, .dispatch], keepsPattern i = true) ∧
      runInstrs [.imask, .osc 4000#16, .iunmask, .dispatch] s0 = .next s1 := by
  obtain ⟨s1, h⟩ := next_of_nextWith
    (a := runInstrs [.imask, .osc 4000#16, .iunmask, .dispatch] (reqbuzzOp 7#8 3#8 (booted 0#32))) (by decide)
  exact ⟨_, s1, rfl, rfl, by decide, h⟩

theorem witness_RepeatTargetZeroPlaysOneUnit :
    ∃ s0 r0 s1 r1, (booted 0#32).dstep = .outside ∧ exec (.reqbuzz 7#8 0#8) (booted 0#32) = .next s0 ∧
      exec (.reqbuzz 7#8 1#8) (booted 0#32) = .next r0 ∧
      (∀ i ∈ [Instr.osc 4000#16, .dispatch], keepsPattern i = true) ∧
      runInstrs [.osc 4000#16, .dispatch] s0 = .next s1 ∧ runInstrs [.osc 4000#16, .dispatch] r0 = .next r1 := by
  obtain ⟨s1, h⟩ := next_of_nextWith
    (a := runInstrs [.osc 4000#16, .dispatch] (reqbuzzOp 7#8 0#8 (booted 0#32))) (by decide)
  obtain ⟨r1, k⟩ := next_of_nextWith
    (a := runInstrs [.osc 4000#16, .dispatch] (reqbuzzOp 7#8 1#8 (booted 0#32))) (by decide)
  exact ⟨_, _, s1, r1, rfl, rfl, rfl, by decide, h, k⟩

theorem witness_RowadvShiftsLatchesAndSelectsOneRow :
    (inHandler .rowadv).dstep = .rowadv ∧ ∃ t, exec .rowadv (inHandler .rowadv) = .next t := ⟨rfl, _, rfl⟩

theorem witness_CursorAdvancesByOneModuloTheRows :
    ((inHandler .rowadv).dstep = .rowadv ∧ (inHandler .rowadv).rowCur.toNat < (inHandler .rowadv).params.maxY) ∧
    (({ inHandler .rowadv with rowCur := 1#8 } : State).rowCur.toNat < 2) ∧
    ∃ t, exec .imask (booted 0#32) = .next t ∧ (Instr.imask ≠ .rowadv ∧ Instr.imask ≠ .dispatch) :=
  ⟨by decide, by decide, _, rfl, by decide⟩

theorem witness_TheSameRowGoesOutOneRefreshLater :
    ∃ t, secondRefresh.dstep = .outside ∧ DisplayOk secondRefresh ∧ 1 ≤ secondRefresh.nDisp ∧
      (∀ i ∈ [Instr.dispatch, .osc 4000#16, .dispatch], keepsPicture i = true) ∧
      runInstrs [.dispatch, .osc 4000#16, .dispatch] secondRefresh = .next t ∧
      ticksIn [.dispatch, .osc 4000#16, .dispatch] = secondRefresh.params.maxY ∧
      secondRefresh.buzzer.phase = .idle ∧
      ∀ i ∈ [Instr.dispatch, .osc 4000#16, .dispatch], ∀ freq rpt, i ≠ .reqbuzz freq rpt := by
  obtain ⟨t, h⟩ := next_of_nextWith (a := runInstrs [.dispatch, .osc 4000#16, .dispatch] secondRefresh) (by decide)
  exact ⟨t, rfl, by unfold DisplayOk; decide, by decide, by decide, h, by decide, rfl, by simp⟩

/-- The last address of PS_BYTE's FrameBuffer, and the first outside it. -/
theorem witness_FrameBufferAddresses :
    ¬ InterruptWaits (wide 0#32) ∧ (17#16).toNat < fbBytes (wide 0#32).params.toRawParams ∧
    fbBytes (wide 0#32).params.toRawParams ≤ (18#16).toNat ∧
    (2 < 3 ∧ 2 < (wide 0#32).params.maxY ∧ 11 < (wide 0#32).params.sizeX) :=
  ⟨fun h => absurd h.1 (by decide), by decide, by decide, by decide⟩

theorem witness_AWrittenByteReadsBackWithoutItsPadding :
    (17#16).toNat < fbBytes (wide 0#32).params.toRawParams ∧ ∃ t, exec (.fbwr 17#16 0xAB#8) (wide 0#32) = .next t :=
  ⟨by decide, next_of_nextWith (by decide)⟩

theorem witness_TheByteMapIsABijection :
    (2 < 3 ∧ 2 < Params.psByte.maxY ∧ 1 < (Params.psByte.sizeX + 7) / 8) ∧ 17 < fbBytes Params.psByte.toRawParams := by
  decide

theorem witness_ImaskAndIunmaskWriteTheMask :
    ¬ InterruptWaits (booted 0#32) ∧ ({ waiting 0#32 with intMask := true } : State).timer.irqPending = true ∧
    ({ waiting 0#32 with intMask := true } : State).intMask = true := ⟨witness_HostEnabled.1, rfl, rfl⟩

/-- The least and the greatest reserved status number. -/
theorem witness_ReservedStatusNumbersAnswerBadRegister :
    ¬ InterruptWaits (booted 0#32) ∧ 0x0E ≤ (0x0E#8).toNat ∧ 0x0E ≤ (0xFF#8).toNat :=
  ⟨witness_HostEnabled.1, by decide, by decide⟩

/-- The last row of PS_BYTE, with the greatest value of a row. -/
theorem witness_FbrowWritesOneWholeRow :
    ({ wide 0#32 with intMask := false } : State).timer.irqPending = false ∧ 2 < (wide 0#32).params.maxY ∧
    0xFFF < 2 ^ (wide 0#32).params.sizeX ∧ 0 < 2 ^ (wide 0#32).params.sizeX := by decide

theorem witness_AnErrorAnswerChangesNoState :
    ∃ t, agentOf (.fbrd 6#16) = .host ∧ exec (.fbrd 6#16) (booted 0#32) = .next t ∧ t.resp = 2#8 :: [0#8] ∧
      (2#8 ≠ 0#8) :=
  ⟨_, rfl, rfl, rfl, by decide⟩

theorem witness_HostOperationsWriteOnlyWhatTheyMay :
    ∃ t, agentOf (.reqbuzz 7#8 3#8) = .host ∧ exec (.reqbuzz 7#8 3#8) (booted 0#32) = .next t := ⟨_, rfl, rfl⟩

/-- The premises of the whole-machine rules over any operation that completes, with the flags each clause asks for. -/
theorem witness_WholeMachineRules :
    (∃ t, exec (.osc 4000#16) (booted 0#32) = .next t ∧ (booted 0#32).timer.irqPending = false ∧
      t.timer.irqPending = true ∧ (booted 0#32).planValid = true) ∧
    (∃ t, exec .dispatch (waiting 0#32) = .next t ∧ (waiting 0#32).timer.irqPending = true ∧
      t.timer.irqPending = false) ∧
    ∃ t, exec (.osc 1#16) { waiting 0#32 with timer := { (waiting 0#32).timer with tickLost := true } } = .next t := by
  obtain ⟨t, h, ht⟩ := prop_of_nextWith (a := exec (.osc 4000#16) (booted 0#32)) (p := fun t => t.timer.irqPending)
    (by decide)
  obtain ⟨u, k, hu⟩ := prop_of_nextWith (a := exec .dispatch (waiting 0#32)) (p := fun t => !t.timer.irqPending)
    (by decide)
  exact ⟨⟨t, h, rfl, ht, rfl⟩, ⟨u, k, rfl, by simpa using hu⟩, next_of_nextWith (by decide)⟩

theorem witness_ThePictureInfluencesOnlyTheDataLines :
    SameButPicture (booted 0#32) { booted 0#32 with fb := [(0, 1#8)], outTrace := [.sched] } := rfl

/-- The premises of the step invariants: a tick in the middle of a pattern, and a write of the picture. -/
theorem witness_StepInvariants :
    (Between { sounding with stim := [0x90000000#32] } ∧ BuzzerOk sounding.buzzer ∧
      ToneOk { sounding with stim := [0x90000000#32] } ∧ TimerOk { sounding with stim := [0x90000000#32] } ∧
      TraceOk { sounding with stim := [0x90000000#32] } ∧ ∃ t, step { sounding with stim := [0x90000000#32] } = .next t) ∧
    (Between (wide 0x300011AB#32) ∧ FrameBufferOk (wide 0x300011AB#32) ∧ ∃ t, step (wide 0x300011AB#32) = .next t) ∧
    (Between { secondRefresh with stim := [0x90000000#32] } ∧ DisplayOk { secondRefresh with stim := [0x90000000#32] } ∧
      ∃ t, step { secondRefresh with stim := [0x90000000#32] } = .next t) := by
  refine ⟨⟨rfl, ?_, ?_, ?_, ?_, ?_⟩, ⟨rfl, ?_, ?_⟩, rfl, ?_, ?_⟩
  · simp only [BuzzerOk, sounding]; decide
  · unfold ToneOk; decide
  · unfold TimerOk; decide
  · unfold TraceOk; decide
  · exact next_of_nextWith (by decide)
  · unfold FrameBufferOk; decide
  · exact next_of_nextWith (by decide)
  · unfold DisplayOk; decide
  · exact next_of_nextWith (by decide)

theorem witness_EveryRunSatisfiesTheInvariants : ∃ s, Reaches Params.psTiny [0x10000002#32, 0x60000000#32] 2 s :=
  next_of_nextWith (a := core.run 2 (boot Params.psTiny [0x10000002#32, 0x60000000#32])) (by decide)

end Sys2Proof.Tests
end

section
/-! PROOFS. The state's rules (10_state.md): what an operation can do to each group of registers, said once as a relation
between the state before and the state after with one case for each way to change the group; then the invariants and
frames that follow from it. -/

namespace Sys2Proof.Proofs

open Sys2Proof.Machine Sys2Proof.Safety

/-! ### Frames of the operations -/

/-- The five operations by which the main context reads and writes the block, but for CONFIG and REQBUZZ. -/
def isAccess : Instr → Bool
  | .fbwr _ _ => true
  | .fbrd _ => true
  | .imask => true
  | .iunmask => true
  | .rdsr _ => true
  | .config _ _ => false
  | .reqbuzz _ _ => false
  | .osc _ => false
  | .dispatch => false
  | .reset => false
  | .schtick => false
  | .bzadv => false
  | .rowadv => false
  | .iack => false

/-- An access writes the FrameBuffer, the mask and the response at most (45_host_access.md rule R157). -/
theorem effect_of_isAccess {i : Instr} (h : isAccess i = true) (s : State) :
    ∃ fb mask resp, effect i s = { s with fb := fb, intMask := mask, resp := resp } := by
  cases i with
  | fbwr addr data =>
    simp only [effect, fbwrOp]
    split <;> exact ⟨_, _, _, rfl⟩
  | fbrd addr =>
    simp only [effect, fbrdOp]
    split <;> exact ⟨_, _, _, rfl⟩
  | rdsr n =>
    simp only [effect, rdsrOp]
    split <;> exact ⟨_, _, _, rfl⟩
  | imask => exact ⟨_, _, _, rfl⟩
  | iunmask => exact ⟨_, _, _, rfl⟩
  | _ => cases h

theorem configOp_of_supported {fsel : Byte} (h : supportedFsel fsel = true) (osc : Osc) (s : State) :
    configOp osc fsel s =
      { s with
        plan := planFor s.params.toRawParams osc fsel
        planValid := true
        timer := { s.timer with timCnt := 0#16, timPcnt := 0#8 }
        resp := [respOK] } := if_pos h

theorem configOp_of_unsupported {fsel : Byte} (h : supportedFsel fsel = false) (osc : Osc) (s : State) :
    configOp osc fsel s = { s with resp := [respUnsupportedFrequency] } := by
  rw [configOp, h]
  rfl

theorem oscOp_of_plan {s : State} (h : s.planValid = true) (n : BitVec 16) :
    oscOp n s = { s with timer := timerCycles s.plan.timPsc (reloadOf s.plan) n.toNat s.timer } := by
  rw [oscOp, if_pos h, timerRun_eq_cycles]

theorem oscOp_of_noPlan {s : State} (h : s.planValid = false) (n : BitVec 16) : oscOp n s = s := by
  rw [oscOp, h]
  rfl

/-- CONFIG writes the plan, the timer and the response at most. -/
theorem configOp_frame (osc : Osc) (fsel : Byte) (s : State) :
    ∃ plan valid timer resp,
      configOp osc fsel s = { s with plan := plan, planValid := valid, timer := timer, resp := resp } := by
  cases hf : supportedFsel fsel with
  | true => exact ⟨_, _, _, _, configOp_of_supported hf osc s⟩
  | false => exact ⟨_, _, _, _, configOp_of_unsupported hf osc s⟩

/-- OSC writes the timer at most. -/
theorem oscOp_frame (n : BitVec 16) (s : State) : ∃ timer, oscOp n s = { s with timer := timer } := by
  unfold oscOp
  split <;> exact ⟨_, rfl⟩

/-- No operation writes the parameters (10_state.md rule R40). -/
@[simp] theorem effect_params (i : Instr) (s : State) : (effect i s).params = s.params := by
  cases i with
  | config osc fsel =>
    obtain ⟨_, _, _, _, e⟩ := configOp_frame osc fsel s
    rw [effect, e]
  | osc n =>
    obtain ⟨_, e⟩ := oscOp_frame n s
    rw [effect, e]
  | bzadv => rw [effect, bzadvOp_eq]
  | rowadv => rw [effect, rowadvOp_eq]
  | dispatch => rw [effect, dispatchOp_eq]
  | reqbuzz | reset | schtick | iack => rfl
  | imask | iunmask => rfl
  | fbwr | fbrd | rdsr =>
    simp only [effect, fbwrOp, fbrdOp, rdsrOp]
    split <;> rfl

/-! ### Steps and answers -/

theorem deliverable_eq_true_iff {s : State} : deliverable s = true ↔ InterruptWaits s := by
  simp [deliverable, InterruptWaits]

/-- A HOST operation is enabled while no deliverable interrupt waits (30_encoding.md rule R80). -/
theorem enabled_of_host {i : Instr} {s : State} (hi : agentOf i = .host) (h : ¬ InterruptWaits s) :
    enabled i s = true := by
  rw [← deliverable_eq_true_iff] at h
  simpa [enabled, hi] using h

/-- A property that does not speak of the stimulus stream and that the effect of every stimulus operation keeps is kept
by every step between operations. -/
theorem step_keeps {P : State → Prop} (hstim : ∀ s ws, P s → P { s with stim := ws })
    (heffect : ∀ i s, i.isStimulus = true → P s → P (effect i s)) {s t : State} (hb : Between s) (hs : P s)
    (h : step s = .next t) : P t := by
  obtain ⟨w, rest, i, -, hdecode, hexec⟩ := step_next_between hb h
  obtain ⟨-, -, rfl⟩ := exec_next_iff.1 hexec
  exact heffect i _ (decodeStimulus_isStimulus hdecode) (hstim s rest hs)

/-! ### The plan and the timer (rules R14 to R21, R35) -/

/-- What an operation can do to the plan, `plan_valid` and the timer. -/
inductive TimerChange (s t : State) : Instr → Prop
  /-- A CONFIG of a supported frequency (40_timer_reload_configurator.md rule R86). -/
  | configured (osc : Osc) (fsel : Byte) (supported : supportedFsel fsel = true)
      (plan : t.plan = planFor s.params.toRawParams osc fsel) (valid : t.planValid = true)
      (timer : t.timer = { s.timer with timCnt := 0#16, timPcnt := 0#8 }) : TimerChange s t (.config osc fsel)
  /-- Oscillator cycles under a plan (rule R92). -/
  | ran (n : BitVec 16) (running : s.planValid = true) (plan : t.plan = s.plan) (valid : t.planValid = s.planValid)
      (timer : t.timer = timerCycles s.plan.timPsc (reloadOf s.plan) n.toNat s.timer) : TimerChange s t (.osc n)
  /-- The acknowledge of the interrupt, alone or as a step of DISPATCH (rule R105). -/
  | acknowledged (i : Instr) (acks : i = .dispatch ∨ i = .iack) (plan : t.plan = s.plan)
      (valid : t.planValid = s.planValid) (timer : t.timer = { s.timer with irqPending := false }) :
      TimerChange s t i
  | cleared (plan : t.plan = (State.resetWith s.params).plan) (valid : t.planValid = false)
      (timer : t.timer = (State.resetWith s.params).timer) : TimerChange s t .reset
  | kept (i : Instr) (plan : t.plan = s.plan) (valid : t.planValid = s.planValid) (timer : t.timer = s.timer) :
      TimerChange s t i

theorem TimerChange.of_isAccess {i : Instr} (h : isAccess i = true) (s : State) : TimerChange s (effect i s) i := by
  obtain ⟨fb, mask, resp, e⟩ := effect_of_isAccess h s
  rw [e]
  exact .kept i rfl rfl rfl

theorem timerChange_effect (i : Instr) (s : State) : TimerChange s (effect i s) i := by
  cases i with
  | config osc fsel =>
    rw [effect]
    cases hf : supportedFsel fsel with
    | true =>
      rw [configOp_of_supported hf]
      exact .configured osc fsel hf rfl rfl rfl
    | false =>
      rw [configOp_of_unsupported hf]
      exact .kept _ rfl rfl rfl
  | osc n =>
    rw [effect]
    cases hv : s.planValid with
    | true =>
      rw [oscOp_of_plan hv]
      exact .ran n hv rfl rfl rfl
    | false =>
      rw [oscOp_of_noPlan hv]
      exact .kept _ rfl rfl rfl
  | dispatch =>
    rw [effect, dispatchOp_eq]
    exact .acknowledged _ (.inl rfl) rfl rfl rfl
  | iack => exact .acknowledged _ (.inr rfl) rfl rfl rfl
  | reset => exact .cleared rfl rfl rfl
  | reqbuzz => exact .kept _ rfl rfl rfl
  | schtick => exact .kept _ rfl rfl rfl
  | bzadv =>
    rw [effect, bzadvOp_eq]
    exact .kept _ rfl rfl rfl
  | rowadv =>
    rw [effect, rowadvOp_eq]
    exact .kept _ rfl rfl rfl
  | _ => exact .of_isAccess rfl s

/-- A lost tick stays recorded over a cycle (rule R35: sticky). -/
theorem timerCycle_tickLost (psc : BitVec 8) (reload : BitVec 16) {t : TimerRegs} (h : t.tickLost = true) :
    (timerCycle psc reload t).tickLost = true := by
  unfold timerCycle
  split
  · split <;> simp [overflow, h]
  · exact h

theorem timerCycles_tickLost (psc : BitVec 8) (reload : BitVec 16) (n : Nat) {t : TimerRegs}
    (h : t.tickLost = true) : (timerCycles psc reload n t).tickLost = true := by
  induction n generalizing t with
  | zero => exact h
  | succ n ih => exact ih (timerCycle_tickLost psc reload h)

/-- The flags of the plan and of lost ticks last until RESET, and only CONFIG and RESET write the plan. -/
theorem TimerChange.sticky {s t : State} {i : Instr} (h : TimerChange s t i) (hi : i ≠ .reset) :
    (s.planValid = true → t.planValid = true) ∧ (s.timer.tickLost = true → t.timer.tickLost = true) ∧
    ((∀ osc fsel, i ≠ .config osc fsel) → t.plan = s.plan ∧ t.planValid = s.planValid) := by
  cases h with
  | configured osc fsel _ _ hvalid htimer =>
    rw [hvalid, htimer]
    exact ⟨fun _ => rfl, id, fun h => absurd rfl (h osc fsel)⟩
  | ran n _ hplan hvalid htimer =>
    rw [hvalid, htimer]
    exact ⟨id, timerCycles_tickLost _ _ _, fun _ => ⟨hplan, rfl⟩⟩
  | acknowledged _ _ hplan hvalid htimer =>
    rw [hvalid, htimer]
    exact ⟨id, id, fun _ => ⟨hplan, rfl⟩⟩
  | cleared => exact absurd rfl hi
  | kept _ hplan hvalid htimer =>
    rw [hvalid, htimer]
    exact ⟨id, id, fun _ => ⟨hplan, rfl⟩⟩

theorem timerOk_iff_of_plan {s : State} (h : s.planValid = true) :
    TimerOk s ↔
      s.plan.clkFsel ≠ 3#2 ∧ s.plan = planFor s.params.toRawParams s.plan.clkOsc (s.plan.clkFsel.setWidth 8) ∧
        countersInRange s.plan.timPsc (reloadOf s.plan) s.timer = true := by
  simp [TimerOk, h, countersInRange]

theorem timerOk_iff_of_noPlan {s : State} (h : s.planValid = false) :
    TimerOk s ↔ s.plan = (State.resetWith s.params).plan ∧ s.timer = (State.resetWith s.params).timer := by
  simp [TimerOk, h]

/-- `TimerOk` speaks of the parameters, the plan, `plan_valid` and the timer only. -/
theorem timerOk_congr {s t : State} (hparams : t.params = s.params) (hplan : t.plan = s.plan)
    (hvalid : t.planValid = s.planValid) (htimer : t.timer = s.timer) : TimerOk t ↔ TimerOk s := by
  simp only [TimerOk, hparams, hplan, hvalid, htimer]

/-- The counters a CONFIG restarts are in the range of its plan, since the divisor is not 0. -/
theorem countersInRange_planFor (p : Params) (osc : Osc) {fsel : Byte} (h : supportedFsel fsel = true)
    {t : TimerRegs} (hcnt : t.timCnt = 0#16) (hpcnt : t.timPcnt = 0#8) :
    countersInRange (planFor p.toRawParams osc fsel).timPsc (reloadOf (planFor p.toRawParams osc fsel)) t = true := by
  have hfsel : fsel.toNat ≤ 2 := by simpa [supportedFsel] using h
  obtain ⟨hdiv, -⟩ := p.pair_bounds osc hfsel
  obtain ⟨hpsc, -⟩ := planFor_values p osc h
  simp only [countersInRange, hcnt, hpcnt, hpsc, BitVec.toNat_ofNat, Bool.and_eq_true, decide_eq_true_eq]
  omega

/-- A change of the plan and the timer keeps their invariant. -/
theorem TimerChange.timerOk {s t : State} {i : Instr} (h : TimerChange s t i) (hparams : t.params = s.params)
    (hs : TimerOk s) : TimerOk t := by
  cases h with
  | configured osc fsel hf hplan hvalid htimer =>
    obtain ⟨hsel, hne⟩ := planFor_clkFsel (p := s.params.toRawParams) (osc := osc) hf
    rw [timerOk_iff_of_plan hvalid, hplan, htimer, hparams, hsel]
    exact ⟨hne, rfl, countersInRange_planFor s.params osc hf rfl rfl⟩
  | ran n hv hplan hvalid htimer =>
    rw [timerOk_iff_of_plan hv] at hs
    obtain ⟨hne, hfor, hrange⟩ := hs
    rw [timerOk_iff_of_plan (hvalid.trans hv), hplan, htimer, hparams]
    exact ⟨hne, hfor, timerCycles_inRange _ hrange⟩
  | acknowledged _ _ hplan hvalid htimer =>
    cases hv : s.planValid with
    | true =>
      rw [timerOk_iff_of_plan hv] at hs
      rw [timerOk_iff_of_plan (hvalid.trans hv), hplan, htimer, hparams]
      exact hs
    | false =>
      rw [timerOk_iff_of_noPlan hv] at hs
      obtain ⟨hplan0, htimer0⟩ := hs
      rw [timerOk_iff_of_noPlan (hvalid.trans hv), hplan, htimer, hparams, htimer0]
      exact ⟨hplan0, rfl⟩
  | cleared hplan hvalid htimer =>
    rw [timerOk_iff_of_noPlan hvalid, hparams]
    exact ⟨hplan, htimer⟩
  | kept _ hplan hvalid htimer => exact (timerOk_congr hparams hplan hvalid htimer).2 hs

/-- Settles O54: every change of the plan and the timer keeps the invariant. -/
theorem everyStepKeepsTheTimerInRange : Obligations.EveryStepKeepsTheTimerInRange := by
  intro s t hb hs h
  exact step_keeps (fun _ _ hs => hs) (fun i s _ hs => (timerChange_effect i s).timerOk (effect_params i s) hs) hb hs h

/-- Settles O50: read off from what an operation can do to the plan and the timer. -/
theorem planAndLostTickLastUntilReset : Obligations.PlanAndLostTickLastUntilReset := by
  intro i s t h hi
  obtain ⟨-, -, rfl⟩ := exec_next_iff.1 h
  exact (timerChange_effect i s).sticky hi

/-! ### The trace and the lines (rules R31 to R33, R36) -/

/-- The events an operation emits (30_encoding.md rule R72), oldest first; RESET emits none and empties the trace. -/
def eventsOf : Instr → State → List Event
  | .reqbuzz freq _, _ => [.bz true freq]
  | .dispatch, s => tickEvents s
  | .schtick, _ => [.sched]
  | .bzadv, s => (bzNext s.buzzer).2
  | .rowadv, s => rowEvents s
  | .iack, _ => [.iack]
  | .config _ _, _ => []
  | .fbwr _ _, _ => []
  | .fbrd _, _ => []
  | .imask, _ => []
  | .iunmask, _ => []
  | .rdsr _, _ => []
  | .osc _, _ => []
  | .reset, _ => []

theorem eventsOf_of_isAccess {i : Instr} (h : isAccess i = true) (s : State) : eventsOf i s = [] := by
  cases i with
  | fbwr | fbrd | imask | iunmask | rdsr => rfl
  | _ => cases h

/-- The trace grows by the events of the list, and they write the lines. -/
def Emits (es : List Event) (s t : State) : Prop :=
  t.outTrace = s.outTrace ++ es ∧ t.lines = es.foldl OutputLines.apply s.lines

theorem Emits.nil {s t : State} (htrace : t.outTrace = s.outTrace) (hlines : t.lines = s.lines) : Emits [] s t :=
  ⟨htrace.trans (List.append_nil _).symm, hlines⟩

theorem Emits.of_isAccess {i : Instr} (h : isAccess i = true) (s : State) :
    Emits (eventsOf i s) s (effect i s) := by
  obtain ⟨fb, mask, resp, e⟩ := effect_of_isAccess h s
  rw [eventsOf_of_isAccess h, e]
  exact .nil rfl rfl

/-- Every operation but RESET emits its events, and changes trace and lines in no other way. -/
theorem effect_emits {i : Instr} (hi : i ≠ .reset) (s : State) : Emits (eventsOf i s) s (effect i s) := by
  cases i with
  | config osc fsel =>
    obtain ⟨_, _, _, _, e⟩ := configOp_frame osc fsel s
    rw [effect, e]
    exact .nil rfl rfl
  | osc n =>
    obtain ⟨_, e⟩ := oscOp_frame n s
    rw [effect, e]
    exact .nil rfl rfl
  | dispatch =>
    rw [effect, dispatchOp_eq]
    exact ⟨rfl, rfl⟩
  | bzadv =>
    rw [effect, bzadvOp_eq]
    exact ⟨rfl, rfl⟩
  | rowadv =>
    rw [effect, rowadvOp_eq]
    exact ⟨rfl, rfl⟩
  | reqbuzz => exact ⟨rfl, rfl⟩
  | schtick => exact ⟨rfl, rfl⟩
  | iack => exact ⟨rfl, rfl⟩
  | reset => exact absurd rfl hi
  | _ => exact .of_isAccess rfl s

/-- Settles O51: the list is that of the operation's own events. -/
theorem operationsAppendTheirEventsToTheTrace : Obligations.OperationsAppendTheirEventsToTheTrace := by
  intro i s t h hi
  obtain ⟨-, -, rfl⟩ := exec_next_iff.1 h
  exact ⟨eventsOf i s, effect_emits hi s⟩

/-! ### The buzzer and its tone (rules R25 to R30, R33) -/

/-- An event of another line leaves the tone. -/
theorem apply_bzOn {e : Event} (h : isBz e = false) (l : OutputLines) : (l.apply e).bzOn = l.bzOn := by
  cases e with
  | bz => cases h
  | _ => rfl

theorem foldl_apply_bzOn {es : List Event} (h : ∀ e ∈ es, isBz e = false) (l : OutputLines) :
    (es.foldl OutputLines.apply l).bzOn = l.bzOn := by
  induction es generalizing l with
  | nil => rfl
  | cons e es ih =>
    rw [List.foldl_cons, ih (fun e he => h e (List.mem_cons_of_mem _ he)), apply_bzOn (h e List.mem_cons_self)]

/-- ROWADV emits no event of the buzzer. -/
theorem rowEvents_isBz {s : State} {e : Event} (h : e ∈ rowEvents s) : isBz e = false := by
  simp only [rowEvents, columnEvents, List.mem_append, List.mem_flatMap, List.mem_cons, List.not_mem_nil,
    or_false] at h
  rcases h with (rfl | ⟨c, -, rfl | rfl | rfl⟩) | rfl | rfl | rfl <;> rfl

/-- Of a tick's events only those of the buzzer's step reach the tone. -/
theorem foldl_tickEvents_bzOn (s : State) (l : OutputLines) :
    ((tickEvents s).foldl OutputLines.apply l).bzOn = ((bzNext s.buzzer).2.foldl OutputLines.apply l).bzOn := by
  rw [tickEvents, List.foldl_cons, List.foldl_append, List.foldl_append]
  exact foldl_apply_bzOn (fun _ => rowEvents_isBz) _

/-- What an operation can do to the buzzer registers and the tone. -/
inductive BuzzerChange (s t : State) : Instr → Prop
  /-- A REQBUZZ (43_buzzer_sequencer_fsm.md rule R129). -/
  | requested (freq rpt : Byte)
      (buzzer : t.buzzer =
        { phase := .sounding, elapsed := 0#16, rptCnt := 0#8, rptTgt := rpt, dbl := false, freq := freq })
      (tone : t.lines.bzOn = true) : BuzzerChange s t (.reqbuzz freq rpt)
  /-- A tick of the sequencer, alone or as a step of DISPATCH (rule R131). -/
  | ticked (i : Instr) (ticks : i = .dispatch ∨ i = .bzadv) (buzzer : t.buzzer = (bzNext s.buzzer).1)
      (tone : t.lines.bzOn = ((bzNext s.buzzer).2.foldl OutputLines.apply s.lines).bzOn) : BuzzerChange s t i
  | cleared (buzzer : t.buzzer = (State.resetWith s.params).buzzer) (tone : t.lines.bzOn = false) :
      BuzzerChange s t .reset
  | kept (i : Instr) (buzzer : t.buzzer = s.buzzer) (tone : t.lines.bzOn = s.lines.bzOn) : BuzzerChange s t i

theorem BuzzerChange.of_isAccess {i : Instr} (h : isAccess i = true) (s : State) :
    BuzzerChange s (effect i s) i := by
  obtain ⟨fb, mask, resp, e⟩ := effect_of_isAccess h s
  rw [e]
  exact .kept i rfl rfl

theorem buzzerChange_effect (i : Instr) (s : State) : BuzzerChange s (effect i s) i := by
  cases i with
  | config osc fsel =>
    obtain ⟨_, _, _, _, e⟩ := configOp_frame osc fsel s
    rw [effect, e]
    exact .kept _ rfl rfl
  | osc n =>
    obtain ⟨_, e⟩ := oscOp_frame n s
    rw [effect, e]
    exact .kept _ rfl rfl
  | reqbuzz freq rpt => exact .requested freq rpt rfl rfl
  | dispatch =>
    rw [effect, dispatchOp_eq]
    exact .ticked _ (.inl rfl) rfl (foldl_tickEvents_bzOn s s.lines)
  | bzadv =>
    rw [effect, bzadvOp_eq]
    exact .ticked _ (.inr rfl) rfl rfl
  | rowadv =>
    rw [effect, rowadvOp_eq]
    exact .kept _ rfl (foldl_apply_bzOn (fun _ => rowEvents_isBz) _)
  | reset => exact .cleared rfl rfl
  | schtick => exact .kept _ rfl rfl
  | iack => exact .kept _ rfl rfl
  | _ => exact .of_isAccess rfl s

theorem toneOk_iff {s : State} : ToneOk s ↔ s.lines.bzOn = (s.buzzer.phase == .sounding) := by
  rw [Bool.eq_iff_iff, beq_iff_eq, ToneOk]

/-- A tick that emits no event ends no phase. -/
theorem bzNext_phase_of_noEvent {b : BuzzerState} : (bzNext b).2 = [] → (bzNext b).1.phase = b.phase := by
  rcases b with ⟨ph, el, rc, rt, db, fr⟩
  cases ph <;> simp only [bzNext]
  case idle => exact fun _ => trivial
  case sounding =>
    split
    · split <;> exact fun h => nomatch h
    · exact fun _ => rfl
  case shortGap =>
    split
    · exact fun h => nomatch h
    · exact fun _ => rfl
  case burstGap =>
    split
    · split <;> exact fun h => nomatch h
    · exact fun _ => rfl

/-- A tick keeps the tone on exactly in Sounding: the one event it may emit says the new phase's tone (rule R136). -/
theorem bzNext_tone {b : BuzzerState} {l : OutputLines} (h : l.bzOn = (b.phase == .sounding)) :
    ((bzNext b).2.foldl OutputLines.apply l).bzOn = ((bzNext b).1.phase == .sounding) := by
  rcases bzNext_events b with hev | hev
  · rw [hev, bzNext_phase_of_noEvent hev]
    exact h
  · rw [hev]
    rfl

theorem zero_lt_tOn : (0#16).toNat < tOn := by decide
theorem zero_lt_tShort : (0#16).toNat < tShort := by decide
theorem zero_lt_tBurst : (0#16).toNat < tBurst := by decide

/-- A tick keeps the buzzer registers coherent: `bz_rpt_cnt` goes up at the end of a unit only, and reaches the units
of the pattern exactly when the sequencer goes Idle (rule R135). -/
theorem buzzerOk_bzNext {b : BuzzerState} (h : BuzzerOk b) : BuzzerOk (bzNext b).1 := by
  rcases b with ⟨ph, el, rc, rt, db, fr⟩
  cases ph with
  | idle => exact h
  | sounding =>
    obtain ⟨-, hcnt⟩ := h
    simp only [bzNext]
    split
    · split
      · exact ⟨zero_lt_tBurst, rfl, hcnt⟩
      · exact ⟨zero_lt_tShort, rfl, hcnt⟩
    next hlt => exact ⟨Nat.lt_of_not_le hlt, hcnt⟩
  | shortGap =>
    obtain ⟨-, hdbl, hcnt⟩ := h
    simp only [bzNext]
    split
    · exact ⟨zero_lt_tOn, hcnt⟩
    next hlt => exact ⟨Nat.lt_of_not_le hlt, hdbl, hcnt⟩
  | burstGap =>
    obtain ⟨-, hdbl, hcnt⟩ := h
    have hunits : rc.toNat < max rt.toNat 1 := hcnt
    have hsucc : (rc + 1#8).toNat = rc.toNat + 1 := by
      have htgt := rt.isLt
      rw [BitVec.toNat_add, BitVec.toNat_ofNat]
      omega
    simp only [bzNext]
    split
    · split
      next htgt =>
        have hlast : (rc + 1#8).toNat = max rt.toNat 1 := by omega
        exact ⟨rfl, hdbl, .inl hlast⟩
      next htgt =>
        have hmore : (rc + 1#8).toNat < max rt.toNat 1 := by omega
        exact ⟨zero_lt_tOn, hmore⟩
    next hlt => exact ⟨Nat.lt_of_not_le hlt, hdbl, hcnt⟩

/-- A change of the buzzer keeps its registers coherent and the tone on exactly in Sounding. -/
theorem BuzzerChange.coherent {s t : State} {i : Instr} (h : BuzzerChange s t i) (hs : BuzzerOk s.buzzer)
    (htone : ToneOk s) : BuzzerOk t.buzzer ∧ ToneOk t := by
  rw [toneOk_iff] at htone ⊢
  cases h with
  | requested freq rpt hb ht =>
    rw [hb, ht]
    exact ⟨⟨zero_lt_tOn, Nat.lt_of_lt_of_le Nat.zero_lt_one (Nat.le_max_right _ _)⟩, rfl⟩
  | ticked _ _ hb ht =>
    rw [hb, ht]
    exact ⟨buzzerOk_bzNext hs, bzNext_tone htone⟩
  | cleared hb ht =>
    rw [hb, ht]
    exact ⟨⟨rfl, rfl, .inr ⟨rfl, rfl⟩⟩, rfl⟩
  | kept _ hb ht =>
    rw [hb, ht]
    exact ⟨hs, htone⟩

/-- Settles O56: every change of the buzzer keeps the two invariants, together since the tone follows the phase. -/
theorem everyStepKeepsTheBuzzerRegistersCoherent : Obligations.EveryStepKeepsTheBuzzerRegistersCoherent := by
  intro s t hb hs htone h
  exact step_keeps (P := fun s => BuzzerOk s.buzzer ∧ ToneOk s) (fun _ _ hs => hs)
    (fun i s _ hs => (buzzerChange_effect i s).coherent hs.1 hs.2) hb ⟨hs, htone⟩ h

/-! ### The status registers (rule R37) -/

/-- RDSR of a register that exists answers OK with its contents and changes nothing. -/
theorem exec_rdsr {s : State} (h : ¬ InterruptWaits s) {n : Byte} {r : StatusReg} (hn : statusReg n = some r) :
    exec (.rdsr n) s = .next { s with resp := [respOK, readStatus s r] } := by
  have hop : rdsrOp n s = { s with resp := [respOK, readStatus s r] } := by
    rw [rdsrOp, hn]
    rfl
  rw [exec_next_iff]
  exact ⟨rfl, enabled_of_host rfl h, hop.symm⟩

theorem readStatus_sr (s : State) :
    readStatus s .sr =
      BitVec.ofNat 8 (s.timer.irqPending.toNat + 2 * s.intMask.toNat + 4 * s.planValid.toNat) := by
  have key : ∀ pending mask valid : Bool,
      (0#5) ++ bit valid ++ bit mask ++ bit pending =
        BitVec.ofNat 8 (pending.toNat + 2 * mask.toNat + 4 * valid.toNat) := by decide
  exact key _ _ _

theorem readStatus_ckcfg (s : State) :
    readStatus s .ckcfg = BitVec.ofNat 8 (s.plan.clkOsc.code.toNat + 2 * s.plan.clkFsel.toNat) := by
  have key : ∀ (fsel : BitVec 2) (osc : BitVec 1),
      (0#5) ++ fsel ++ osc = BitVec.ofNat 8 (osc.toNat + 2 * fsel.toNat) := by decide
  exact key _ _

theorem readStatus_bzst (s : State) :
    readStatus s .bzst =
      BitVec.ofNat 8 (s.buzzer.phase.code.toNat + 4 * s.buzzer.dbl.toNat + 8 * s.lines.bzOn.toNat) := by
  have key : ∀ (phase : BitVec 2) (dbl on : Bool),
      (0#4) ++ bit on ++ bit dbl ++ phase = BitVec.ofNat 8 (phase.toNat + 4 * dbl.toNat + 8 * on.toNat) := by decide
  exact key _ _ _

theorem readStatus_bzelh (s : State) :
    readStatus s .bzelh = BitVec.ofNat 8 (s.buzzer.elapsed.toNat / 256) := by
  apply BitVec.eq_of_toNat_eq
  simp [readStatus, BitVec.extractLsb'_toNat, Nat.shiftRight_eq_div_pow]

theorem readStatus_bzell (s : State) :
    readStatus s .bzell = BitVec.ofNat 8 (s.buzzer.elapsed.toNat % 256) := by
  apply BitVec.eq_of_toNat_eq
  simp [readStatus, BitVec.extractLsb'_toNat]

theorem readStatus_lines (s : State) :
    readStatus s .lines =
      BitVec.ofNat 8
        (s.lines.sdR.toNat + 2 * s.lines.sdG.toNat + 4 * s.lines.sdB.toNat + 8 * s.lines.shcp.toNat +
          16 * s.lines.stcp.toNat) := by
  have key : ∀ r g b clock latch : Bool,
      (0#3) ++ bit latch ++ bit clock ++ bit b ++ bit g ++ bit r =
        BitVec.ofNat 8 (r.toNat + 2 * g.toNat + 4 * b.toNat + 8 * clock.toNat + 16 * latch.toNat) := by decide
  exact key _ _ _ _ _

/-- Settles O41, register by register. -/
theorem rdsrAnswersTheStatusRegisters : Obligations.RdsrAnswersTheStatusRegisters := by
  intro s h answers phase osc
  have hphase : s.buzzer.phase.code.toNat = phase := by
    simp only [phase]
    cases s.buzzer.phase <;> rfl
  have hosc : s.plan.clkOsc.code.toNat = osc := by
    simp only [osc]
    cases s.plan.clkOsc <;> rfl
  have hanswer : ∀ (n v : Nat) (r : StatusReg), statusReg (BitVec.ofNat 8 n) = some r →
      readStatus s r = BitVec.ofNat 8 v → answers n v := by
    intro n v r hn hv
    have e := exec_rdsr h hn
    rwa [hv] at e
  have hbyte : ∀ (n : Nat) (b : Byte) (r : StatusReg), statusReg (BitVec.ofNat 8 n) = some r →
      readStatus s r = b → answers n b.toNat := fun n b r hn hr =>
    hanswer n b.toNat r hn (by rw [BitVec.ofNat_toNat, BitVec.setWidth_eq, hr])
  exact ⟨hanswer _ _ .sr rfl (readStatus_sr s), hanswer _ _ .ckcfg rfl (hosc ▸ readStatus_ckcfg s),
    hbyte _ _ .psc rfl rfl, hbyte _ _ .arrh rfl rfl, hbyte _ _ .arrl rfl rfl, hbyte _ _ .rowcur rfl rfl,
    hanswer _ _ .bzst rfl (hphase ▸ readStatus_bzst s), hanswer _ _ .bzelh rfl (readStatus_bzelh s),
    hanswer _ _ .bzell rfl (readStatus_bzell s), hbyte _ _ .bzcnt rfl rfl, hbyte _ _ .bztgt rfl rfl,
    hbyte _ _ .bzfreq rfl rfl, hbyte _ _ .rowsel rfl rfl, hanswer _ _ .lines rfl (readStatus_lines s)⟩

/-! ### RESET (rule R39) -/

theorem exec_reset (s : State) : exec .reset s = .next (resetOp s) := exec_next_iff.2 ⟨rfl, rfl, rfl⟩

/-- With an empty byte store every pixel is 0. -/
theorem pixel_of_fb_nil {s : State} (h : s.fb = []) (plane y c : Nat) : pixel s plane y c = false := by
  simp [pixel, memRead, h]

/-- Settles O43: RESET is enabled everywhere, and the store it leaves is empty. -/
theorem resetGivesEveryRegisterItsResetValue : Obligations.ResetGivesEveryRegisterItsResetValue := by
  intro s
  refine ⟨exec_reset s, fun t h => pixel_of_fb_nil ?_⟩
  rw [exec_reset] at h
  cases h
  rfl

theorem frameBufferOk_boot (p : Params) (ws : List StimWord) : FrameBufferOk (boot p ws) :=
  ⟨Memory.wf_nil, fun _ hc => absurd hc List.not_mem_nil⟩

theorem displayOk_boot (p : Params) (ws : List StimWord) : DisplayOk (boot p ws) :=
  ⟨(Nat.zero_mod _).symm, rfl, rfl, rfl⟩

/-- Settles O58, invariant by invariant. -/
theorem theResetStateSatisfiesTheInvariants : Obligations.TheResetStateSatisfiesTheInvariants := by
  intro p ws
  exact {
    between := rfl
    frameBuffer := frameBufferOk_boot p ws
    timer := (timerOk_iff_of_noPlan rfl).2 ⟨rfl, rfl⟩
    display := displayOk_boot p ws
    buzzer := ⟨rfl, rfl, .inr ⟨rfl, rfl⟩⟩
    tone := toneOk_iff.2 rfl
    trace := ⟨rfl, rfl, rfl⟩ }

end Sys2Proof.Proofs
end

section
/-! PROOFS. The memory's rules (20_memory.md): the byte map; what an operation can do to the FrameBuffer store, to the
cursor and to the lines, and the invariants that follow; and that all the invariants together hold along every run. -/

namespace Sys2Proof.Proofs

open Sys2Proof.Machine Sys2Proof.Safety

/-! ### The byte map (rule R43) -/

section ByteMap
variable {p : RawParams} {plane y k : Nat}

theorem rowOffset_lt (hy : y < p.maxY) (hk : k < rowBytes p) : y * rowBytes p + k < planeBytes p := by
  calc y * rowBytes p + k < (y + 1) * rowBytes p := by rw [Nat.succ_mul]; omega
    _ ≤ planeBytes p := Nat.mul_le_mul_right _ hy

theorem fbAddr_lt (hplane : plane < 3) (hy : y < p.maxY) (hk : k < rowBytes p) : fbAddr p plane y k < fbBytes p := by
  have hrow := rowOffset_lt hy hk
  calc fbAddr p plane y k < (plane + 1) * planeBytes p := by rw [fbAddr, Nat.succ_mul]; omega
    _ ≤ fbBytes p := Nat.mul_le_mul_right _ hplane

theorem planeOf_fbAddr (hy : y < p.maxY) (hk : k < rowBytes p) : planeOf p (fbAddr p plane y k) = plane := by
  have hrow := rowOffset_lt hy hk
  rw [planeOf, fbAddr, Nat.add_assoc, Nat.mul_comm, Nat.mul_add_div (by omega), Nat.div_eq_of_lt hrow, Nat.add_zero]

theorem rowOf_fbAddr (hy : y < p.maxY) (hk : k < rowBytes p) : rowOf p (fbAddr p plane y k) = y := by
  have hrow := rowOffset_lt hy hk
  rw [rowOf, fbAddr, Nat.add_assoc, Nat.mul_comm plane, Nat.mul_add_mod, Nat.mod_eq_of_lt hrow, Nat.mul_comm,
    Nat.mul_add_div (by omega), Nat.div_eq_of_lt hk, Nat.add_zero]

/-- A plane is whole rows, so an address has the same byte of the row in the space as in its plane. -/
theorem mod_planeBytes_mod_rowBytes (p : RawParams) (a : Nat) : a % planeBytes p % rowBytes p = a % rowBytes p :=
  Nat.mod_mod_of_dvd a (Nat.dvd_mul_left _ _)

theorem byteOf_fbAddr (hy : y < p.maxY) (hk : k < rowBytes p) : byteOf p (fbAddr p plane y k) = k := by
  have hrow := rowOffset_lt hy hk
  rw [byteOf, ← mod_planeBytes_mod_rowBytes, fbAddr, Nat.add_assoc, Nat.mul_comm plane, Nat.mul_add_mod,
    Nat.mod_eq_of_lt hrow, Nat.mul_comm, Nat.mul_add_mod, Nat.mod_eq_of_lt hk]

/-- The three inverse formulas lead back to the address, whatever it is. -/
theorem fbAddr_inverse (p : RawParams) (a : Nat) : fbAddr p (planeOf p a) (rowOf p a) (byteOf p a) = a := by
  calc fbAddr p (planeOf p a) (rowOf p a) (byteOf p a)
      = a / planeBytes p * planeBytes p +
          (a % planeBytes p / rowBytes p * rowBytes p + a % planeBytes p % rowBytes p) := by
        rw [mod_planeBytes_mod_rowBytes, ← Nat.add_assoc]
        rfl
    _ = a / planeBytes p * planeBytes p + a % planeBytes p := by rw [Nat.div_add_mod']
    _ = a := Nat.div_add_mod' _ _

end ByteMap

theorem planeOf_lt {p : RawParams} {a : Nat} (h : a < fbBytes p) : planeOf p a < 3 :=
  Nat.div_lt_of_lt_mul (by rwa [Nat.mul_comm])

theorem rowOf_lt (p : Params) (a : Nat) : rowOf p.toRawParams a < p.maxY :=
  Nat.div_lt_of_lt_mul (by
    rw [Nat.mul_comm]
    exact Nat.mod_lt _ p.planeBytes_pos)

theorem byteOf_lt (p : Params) (a : Nat) : byteOf p.toRawParams a < rowBytes p.toRawParams :=
  Nat.mod_lt _ p.rowBytes_pos

/-- Settles O39, formula by formula. -/
theorem theByteMapIsABijection : Obligations.TheByteMapIsABijection := by
  intro p rb
  refine ⟨fun plane y k hplane hy hk => ?_, fun a ha => ?_⟩
  · exact ⟨rfl, fbAddr_lt hplane hy hk, planeOf_fbAddr hy hk, rowOf_fbAddr hy hk, byteOf_fbAddr hy hk⟩
  · exact ⟨planeOf_lt ha, rowOf_lt p a, byteOf_lt p a, fbAddr_inverse p.toRawParams a⟩

/-! ### Reading back a written byte (rules R44, R46) -/

theorem inFrameBuffer_iff {p : RawParams} {addr : BitVec 16} :
    inFrameBuffer p addr = true ↔ addr.toNat < fbBytes p := decide_eq_true_iff

theorem fbwrOp_of_inside {s : State} {addr : BitVec 16} (h : inFrameBuffer s.params.toRawParams addr = true)
    (data : Byte) : fbwrOp addr data s = respond [respOK] (memWrite addr.toNat data s) := if_pos h

theorem fbwrOp_of_outside {s : State} {addr : BitVec 16} (h : inFrameBuffer s.params.toRawParams addr = false)
    (data : Byte) : fbwrOp addr data s = respond [respBadAddress] s := by
  rw [fbwrOp, h]
  rfl

theorem fbrdOp_of_inside {s : State} {addr : BitVec 16} (h : inFrameBuffer s.params.toRawParams addr = true) :
    fbrdOp addr s = respond [respOK, memRead s addr.toNat] s := if_pos h

/-- FBRD inside the FrameBuffer answers OK with `MemRead`'s byte and changes nothing. -/
theorem exec_fbrd_of_inside {s : State} {addr : BitVec 16} (henabled : enabled (.fbrd addr) s = true)
    (h : addr.toNat < fbBytes s.params.toRawParams) :
    exec (.fbrd addr) s = .next { s with resp := [respOK, memRead s addr.toNat] } :=
  exec_next_iff.2 ⟨rfl, henabled, (fbrdOp_of_inside (inFrameBuffer_iff.2 h)).symm⟩

/-- Settles O38: FBWR leaves the interrupt flags alone, so FBRD is enabled after it, and what `MemWrite` masks off is
exactly the padding. -/
theorem aWrittenByteReadsBackWithoutItsPadding : Obligations.AWrittenByteReadsBackWithoutItsPadding := by
  intro s t addr data haddr h
  obtain ⟨-, henabled, ht⟩ := exec_next_iff.1 h
  rw [effect, fbwrOp_of_inside (inFrameBuffer_iff.2 haddr)] at ht
  subst ht
  refine ⟨_, exec_fbrd_of_inside henabled haddr, fun j hj => ?_⟩
  have hread : memRead (respond [respOK] (memWrite addr.toNat data s)) addr.toNat =
      data &&& columnMask s.params.toRawParams addr.toNat := memRead_memWrite_same s addr.toNat data
  rw [hread, BitVec.getLsbD_and, columnMask_getLsbD, decide_eq_true hj, Bool.true_and, Bool.and_comm]

/-! ### The FrameBuffer store (rules R46, R50) -/

/-- What an operation can do to the FrameBuffer. -/
inductive StoreChange (s t : State) : Instr → Prop
  /-- An FBWR inside the FrameBuffer (45_host_access.md rule R151). -/
  | written (addr : BitVec 16) (data : Byte) (inside : addr.toNat < fbBytes s.params.toRawParams)
      (fb : t.fb = (memWrite addr.toNat data s).fb) : StoreChange s t (.fbwr addr data)
  | cleared (fb : t.fb = []) : StoreChange s t .reset
  | kept (i : Instr) (fb : t.fb = s.fb) : StoreChange s t i

theorem storeChange_effect (i : Instr) (s : State) : StoreChange s (effect i s) i := by
  cases i with
  | fbwr addr data =>
    rw [effect]
    cases h : inFrameBuffer s.params.toRawParams addr with
    | true =>
      rw [fbwrOp_of_inside h]
      exact .written addr data (inFrameBuffer_iff.1 h) rfl
    | false =>
      rw [fbwrOp_of_outside h]
      exact .kept _ rfl
  | reset => exact .cleared rfl
  | config osc fsel =>
    obtain ⟨_, _, _, _, e⟩ := configOp_frame osc fsel s
    rw [effect, e]
    exact .kept _ rfl
  | osc n =>
    obtain ⟨_, e⟩ := oscOp_frame n s
    rw [effect, e]
    exact .kept _ rfl
  | fbrd | rdsr =>
    simp only [effect, fbrdOp, rdsrOp]
    split <;> exact .kept _ rfl
  | dispatch =>
    rw [effect, dispatchOp_eq]
    exact .kept _ rfl
  | bzadv =>
    rw [effect, bzadvOp_eq]
    exact .kept _ rfl
  | rowadv =>
    rw [effect, rowadvOp_eq]
    exact .kept _ rfl
  | reqbuzz | imask | iunmask | schtick | iack => exact .kept _ rfl

/-- `FrameBufferOk` speaks of the parameters and the store only. -/
theorem frameBufferOk_congr {s t : State} (hparams : t.params = s.params) (hfb : t.fb = s.fb) :
    FrameBufferOk t ↔ FrameBufferOk s := by
  simp only [FrameBufferOk, hparams, hfb]

theorem frameBufferOk_of_fb_nil {s : State} (h : s.fb = []) : FrameBufferOk s :=
  ⟨h ▸ Memory.wf_nil, fun _ hc => absurd (h ▸ hc) List.not_mem_nil⟩

/-- A write inside the region keeps the store canonical, in the region and free of padding bits: the cell it lists is
masked, and the other cells are as before. -/
theorem frameBufferOk_memWrite {s : State} {a : Nat} (h : FrameBufferOk s) (ha : a < fbBytes s.params.toRawParams)
    (v : Byte) : FrameBufferOk (memWrite a v s) := by
  obtain ⟨hwf, hcells⟩ := h
  refine ⟨memWrite_wf hwf a v, fun c hc => ?_⟩
  rw [memWrite_fb] at hc
  rcases Memory.mem_write.1 hc with ⟨-, rfl⟩ | ⟨hold, -⟩
  · exact ⟨ha, by rw [memWrite_params, BitVec.and_assoc, BitVec.and_self]⟩
  · exact hcells c hold

/-- A change of the FrameBuffer keeps the store's invariant. -/
theorem StoreChange.frameBufferOk {s t : State} {i : Instr} (h : StoreChange s t i) (hparams : t.params = s.params)
    (hs : FrameBufferOk s) : FrameBufferOk t := by
  cases h with
  | written addr data hinside hfb =>
    exact (frameBufferOk_congr (hparams.trans (memWrite_params ..).symm) hfb).2
      (frameBufferOk_memWrite hs hinside data)
  | cleared hfb => exact frameBufferOk_of_fb_nil hfb
  | kept _ hfb => exact (frameBufferOk_congr hparams hfb).2 hs

/-- Settles O53: every change of the FrameBuffer keeps the invariant. -/
theorem everyStepKeepsTheFrameBufferStore : Obligations.EveryStepKeepsTheFrameBufferStore := by
  intro s t hb hs h
  exact step_keeps (fun _ _ hs => hs)
    (fun i s _ hs => (storeChange_effect i s).frameBufferOk (effect_params i s) hs) hb hs h

/-! ### The lines after a row and after a tick (rule R59) -/

/-- Columns shifted out leave the data lines at the last column's levels and the clock LOW. -/
theorem foldl_columnEvents (s : State) (y n : Nat) (l : OutputLines) :
    ((List.range (n + 1)).flatMap (columnEvents s y)).foldl OutputLines.apply l =
      { l with sdR := !pixel s 0 y n, sdG := !pixel s 1 y n, sdB := !pixel s 2 y n, shcp := false } := by
  induction n with
  | zero => rfl
  | succ n ih =>
    rw [List.range_succ, List.flatMap_append, List.foldl_append, ih]
    rfl

/-- Everything ROWADV does to the lines. -/
theorem foldl_rowEvents (s : State) (l : OutputLines) :
    (rowEvents s).foldl OutputLines.apply l =
      { l with
        sdR := !pixel s 0 s.rowCur.toNat (s.params.sizeX - 1)
        sdG := !pixel s 1 s.rowCur.toNat (s.params.sizeX - 1)
        sdB := !pixel s 2 s.rowCur.toNat (s.params.sizeX - 1)
        shcp := false
        stcp := false
        rowSel := rowSelect s.rowCur } := by
  obtain ⟨n, hn⟩ := Nat.exists_eq_add_of_le' s.params.sizeX_pos
  rw [rowEvents, List.foldl_append, List.foldl_append, hn, foldl_columnEvents]
  rfl

/-- A tick leaves the clock and the latch line LOW and the row it drove selected. -/
theorem foldl_tickEvents (s : State) (l : OutputLines) :
    ((tickEvents s).foldl OutputLines.apply l).rowSel = rowSelect s.rowCur ∧
    ((tickEvents s).foldl OutputLines.apply l).shcp = false ∧
    ((tickEvents s).foldl OutputLines.apply l).stcp = false := by
  rw [tickEvents, List.foldl_cons, List.foldl_append, List.foldl_append, foldl_rowEvents]
  exact ⟨rfl, rfl, rfl⟩

/-! ### The cursor and the row-select byte -/

/-- What a stimulus operation can do to the cursor, the count of ticks, the row-select byte, the clock and the latch
line. -/
inductive CursorChange (s t : State) : Instr → Prop
  /-- A tick (42_row_multiplexer_shift_register_driver.md rules R122, R123). -/
  | ticked (row : t.rowCur = nextRow s.params.toRawParams s.rowCur) (count : t.nDisp = s.nDisp + 1)
      (select : t.lines.rowSel = rowSelect s.rowCur) (clock : t.lines.shcp = false) (latch : t.lines.stcp = false) :
      CursorChange s t .dispatch
  | cleared (row : t.rowCur = 0#8) (count : t.nDisp = 0) (lines : t.lines = (State.resetWith s.params).lines) :
      CursorChange s t .reset
  | kept (i : Instr) (row : t.rowCur = s.rowCur) (count : t.nDisp = s.nDisp)
      (select : t.lines.rowSel = s.lines.rowSel) (clock : t.lines.shcp = s.lines.shcp)
      (latch : t.lines.stcp = s.lines.stcp) : CursorChange s t i

theorem CursorChange.of_isAccess {i : Instr} (h : isAccess i = true) (s : State) :
    CursorChange s (effect i s) i := by
  obtain ⟨fb, mask, resp, e⟩ := effect_of_isAccess h s
  rw [e]
  exact .kept i rfl rfl rfl rfl rfl

theorem cursorChange_effect {i : Instr} (hi : i.isStimulus = true) (s : State) : CursorChange s (effect i s) i := by
  cases i with
  | config osc fsel =>
    obtain ⟨_, _, _, _, e⟩ := configOp_frame osc fsel s
    rw [effect, e]
    exact .kept _ rfl rfl rfl rfl rfl
  | osc n =>
    obtain ⟨_, e⟩ := oscOp_frame n s
    rw [effect, e]
    exact .kept _ rfl rfl rfl rfl rfl
  | reqbuzz => exact .kept _ rfl rfl rfl rfl rfl
  | dispatch =>
    obtain ⟨hselect, hclock, hlatch⟩ := foldl_tickEvents s s.lines
    rw [effect, dispatchOp_eq]
    exact .ticked rfl rfl hselect hclock hlatch
  | reset => exact .cleared rfl rfl rfl
  | schtick | bzadv | rowadv | iack => cases hi
  | _ => exact .of_isAccess rfl s

/-- The cursor counts modulo the rows (rule R123). -/
theorem nextRow_toNat (p : Params) {row : Byte} (h : row.toNat < p.maxY) :
    (nextRow p.toRawParams row).toNat = (row.toNat + 1) % p.maxY := by
  unfold nextRow
  split
  next hlast => rw [hlast, Nat.mod_self]; rfl
  next hmore =>
    have hmax := p.maxY_le
    rw [Nat.mod_eq_of_lt (by omega), BitVec.toNat_add, BitVec.toNat_ofNat]
    omega

/-- Every row number fits the address bits of the row-select byte, since there are at most 128 rows. -/
theorem rowSelect_of_lt {row : Byte} (h : row.toNat < 128) : rowSelect row = 0x80#8 ||| row := by
  have key : ∀ row : Byte, row.toNat < 128 → row &&& 0x7F#8 = row := by decide
  rw [rowSelect, key row h]

/-- A change of the cursor keeps the cursor law (42_row_multiplexer_shift_register_driver.md rules R122, R124). -/
theorem CursorChange.displayOk {s t : State} {i : Instr} (h : CursorChange s t i) (hparams : t.params = s.params)
    (hs : DisplayOk s) : DisplayOk t := by
  cases h with
  | ticked hrow hcount hselect hclock hlatch =>
    obtain ⟨hcur, -⟩ := hs
    have hlt : s.rowCur.toNat < s.params.maxY := hcur ▸ Nat.mod_lt _ s.params.maxY_pos
    have hbyte : BitVec.ofNat 8 (s.nDisp % s.params.maxY) = s.rowCur := by
      rw [← hcur, BitVec.ofNat_toNat, BitVec.setWidth_eq]
    refine ⟨?_, ?_, hclock, hlatch⟩
    · rw [hrow, hcount, hparams, nextRow_toNat s.params hlt, hcur, Nat.mod_add_mod]
    · rw [hselect, hcount, hparams, if_neg (Nat.succ_ne_zero _), Nat.add_sub_cancel, hbyte,
        rowSelect_of_lt (Nat.lt_of_lt_of_le hlt s.params.maxY_le)]
  | cleared hrow hcount hlines =>
    rw [DisplayOk, hrow, hcount, hlines]
    exact ⟨(Nat.zero_mod _).symm, rfl, rfl, rfl⟩
  | kept _ hrow hcount hselect hclock hlatch =>
    rw [DisplayOk, hrow, hcount, hselect, hclock, hlatch, hparams]
    exact hs

/-! ### The trace's account -/

/-- Of a tick's events only the first is SCHED and only the last is IACK: the row's and the buzzer's are neither. -/
theorem rowEvents_ne {s : State} {e : Event} (h : e ∈ rowEvents s) : e ≠ .sched ∧ e ≠ .iack := by
  simp only [rowEvents, columnEvents, List.mem_append, List.mem_flatMap, List.mem_cons, List.not_mem_nil,
    or_false] at h
  rcases h with (rfl | ⟨c, -, rfl | rfl | rfl⟩) | rfl | rfl | rfl <;> simp

theorem bzNext_events_ne {b : BuzzerState} {e : Event} (h : e ∈ (bzNext b).2) : e ≠ .sched ∧ e ≠ .iack := by
  rcases bzNext_events b with hev | hev <;> rw [hev] at h
  · cases h
  · rw [List.mem_singleton.1 h]
    simp

theorem count_eq_zero_of_ne {es : List Event} (h : ∀ e ∈ es, e ≠ .sched ∧ e ≠ .iack) :
    es.count .sched = 0 ∧ es.count .iack = 0 :=
  ⟨List.count_eq_zero.2 fun hm => (h _ hm).1 rfl, List.count_eq_zero.2 fun hm => (h _ hm).2 rfl⟩

/-- A tick emits one SCHED and one IACK (44_scheduler_tick_invoker.md rule R149). -/
theorem count_tickEvents (s : State) : (tickEvents s).count .sched = 1 ∧ (tickEvents s).count .iack = 1 := by
  have hbz := count_eq_zero_of_ne fun _ => bzNext_events_ne (b := s.buzzer)
  have hrow := count_eq_zero_of_ne fun _ => rowEvents_ne (s := s)
  simp [tickEvents, hbz, hrow]

/-- A stimulus operation emits one SCHED and one IACK if it is a tick, and none otherwise. -/
theorem count_eventsOf {i : Instr} (hi : i.isStimulus = true) (s : State) :
    (eventsOf i s).count .sched = ticksIn [i] ∧ (eventsOf i s).count .iack = ticksIn [i] := by
  cases i with
  | dispatch => exact count_tickEvents s
  | schtick | bzadv | rowadv | iack => cases hi
  | _ => exact ⟨rfl, rfl⟩

/-- `n_disp` counts the ticks (10_state.md rule R35). -/
theorem effect_nDisp {i : Instr} (hi : i ≠ .reset) (s : State) : (effect i s).nDisp = s.nDisp + ticksIn [i] := by
  cases i with
  | config osc fsel =>
    obtain ⟨_, _, _, _, e⟩ := configOp_frame osc fsel s
    rw [effect, e]
    rfl
  | osc n =>
    obtain ⟨_, e⟩ := oscOp_frame n s
    rw [effect, e]
    rfl
  | bzadv => rw [effect, bzadvOp_eq]; rfl
  | rowadv => rw [effect, rowadvOp_eq]; rfl
  | dispatch => rw [effect, dispatchOp_eq]; rfl
  | reset => exact absurd rfl hi
  | reqbuzz | imask | iunmask | schtick | iack => rfl
  | fbwr | fbrd | rdsr =>
    simp only [effect, fbwrOp, fbrdOp, rdsrOp]
    split <;> rfl

/-- A stimulus operation keeps the trace's account: it counts a tick exactly when it emits one SCHED and one IACK, and
its events write the lines. -/
theorem traceOk_effect {i : Instr} (hi : i.isStimulus = true) {s : State} (hs : TraceOk s) :
    TraceOk (effect i s) := by
  by_cases hreset : i = .reset
  · subst hreset
    exact ⟨rfl, rfl, rfl⟩
  · obtain ⟨hsched, hiack, hlines⟩ := hs
    obtain ⟨htrace, hwritten⟩ := effect_emits hreset s
    obtain ⟨hsched', hiack'⟩ := count_eventsOf hi s
    refine ⟨?_, ?_, ?_⟩
    · rw [htrace, List.count_append, hsched, hsched', effect_nDisp hreset]
    · rw [htrace, List.count_append, hiack, hiack', effect_nDisp hreset]
    · rw [hwritten, htrace, effect_params, levelsAfter, List.foldl_append, hlines, levelsAfter]

/-! ### All the invariants along a run (rule R51) -/

/-- A stimulus operation is atomic: it ends between operations (10_state.md rule R34). -/
theorem between_effect {i : Instr} (hi : i.isStimulus = true) {s : State} (hs : Between s) :
    Between (effect i s) := by
  cases i with
  | config osc fsel =>
    obtain ⟨_, _, _, _, e⟩ := configOp_frame osc fsel s
    rw [effect, e]
    exact hs
  | osc n =>
    obtain ⟨_, e⟩ := oscOp_frame n s
    rw [effect, e]
    exact hs
  | dispatch =>
    rw [effect, dispatchOp_eq]
    rfl
  | reset => rfl
  | reqbuzz | imask | iunmask => exact hs
  | fbwr | fbrd | rdsr =>
    simp only [effect, fbwrOp, fbrdOp, rdsrOp]
    split <;> exact hs
  | schtick | bzadv | rowadv | iack => cases hi

/-- A stimulus operation keeps all the invariants. -/
theorem inv_effect {i : Instr} (hi : i.isStimulus = true) {s : State} (h : Inv s) : Inv (effect i s) := by
  have hparams := effect_params i s
  obtain ⟨hbuzzer, htone⟩ := (buzzerChange_effect i s).coherent h.buzzer h.tone
  exact {
    between := between_effect hi h.between
    frameBuffer := (storeChange_effect i s).frameBufferOk hparams h.frameBuffer
    timer := (timerChange_effect i s).timerOk hparams h.timer
    display := (cursorChange_effect hi s).displayOk hparams h.display
    buzzer := hbuzzer
    tone := htone
    trace := traceOk_effect hi h.trace }

/-- The invariants do not speak of the stimulus stream. -/
theorem inv_withStim {s : State} (h : Inv s) (ws : List StimWord) : Inv { s with stim := ws } :=
  ⟨h.between, h.frameBuffer, h.timer, h.display, h.buzzer, h.tone, h.trace⟩

/-- A run of one step more is the step and then the run. -/
theorem run_succ_next_iff {M : Host.Core} {k : Nat} {s t : M.State} :
    M.run (k + 1) s = .next t ↔ ∃ u, M.step s = .next u ∧ M.run k u = .next t := by
  rw [Host.Core.run]
  cases M.step s <;> simp

/-- A property that every step keeps is kept along every run. -/
theorem run_keeps {P : State → Prop} (hstep : ∀ s t, P s → step s = .next t → P t) (k : Nat) {s t : State}
    (hs : P s) (h : core.run k s = .next t) : P t := by
  induction k generalizing s with
  | zero =>
    cases h
    exact hs
  | succ k ih =>
    obtain ⟨u, hu, hrun⟩ := run_succ_next_iff.1 h
    exact ih (hstep s u hs hu) hrun

/-- Every step keeps all the invariants and the parameters. -/
theorem step_inv (p : Params) {s t : State} (hs : Inv s ∧ s.params = p) (h : step s = .next t) :
    Inv t ∧ t.params = p :=
  step_keeps (P := fun s => Inv s ∧ s.params = p) (fun _ ws hs => ⟨inv_withStim hs.1 ws, hs.2⟩)
    (fun i s hi hs => ⟨inv_effect hi hs.1, (effect_params i s).trans hs.2⟩) hs.1.between hs h

/-- Settles O59: the invariants hold right after RESET and every step keeps them. -/
theorem everyRunSatisfiesTheInvariants : Obligations.EveryRunSatisfiesTheInvariants := by
  intro p ws k s h
  exact run_keeps (fun _ _ => step_inv p) k ⟨theResetStateSatisfiesTheInvariants p ws, rfl⟩ h

end Sys2Proof.Proofs
end

section
/-! PROOFS. The encoding's rules (30_encoding.md). A stimulus word is its four fields, so the decoder and the encoder
are inverse to each other and the legal words are those whose fields are; then what a step does with a word, which
operation is enabled, and the pseudo-operations OVF and FBROW as the operations they expand to. -/

namespace Sys2Proof.Proofs

open Sys2Proof.Machine Sys2Proof.Safety

/-! ### The fields of a stimulus word (rule R61) -/

/-- Two parts put together are the sum of the upper one, shifted, and the lower one. -/
theorem toNat_append_eq_add {m n : Nat} (x : BitVec m) (y : BitVec n) :
    (x ++ y).toNat = x.toNat * 2 ^ n + y.toNat := by
  rw [BitVec.toNat_append, ← Nat.shiftLeft_add_eq_or_of_lt y.isLt, Nat.shiftLeft_eq]

theorem append_inj {m n : Nat} {x x' : BitVec m} {y y' : BitVec n} (h : x ++ y = x' ++ y') : x = x' ∧ y = y' :=
  ⟨by rw [← BitVec.extractLsb'_append_eq_left (a := x) (b := y), h, BitVec.extractLsb'_append_eq_left],
    by rw [← BitVec.extractLsb'_append_eq_right (a := x) (b := y), h, BitVec.extractLsb'_append_eq_right]⟩

section Fields
variable (w : StimWord)

theorem toNat_opField : (opField w).toNat = w.toNat / 2 ^ 28 % 2 ^ 4 := by
  rw [opField, BitVec.extractLsb'_toNat, Nat.shiftRight_eq_div_pow]

theorem toNat_zField : (zField w).toNat = w.toNat / 2 ^ 24 % 2 ^ 4 := by
  rw [zField, BitVec.extractLsb'_toNat, Nat.shiftRight_eq_div_pow]

theorem toNat_aField : (aField w).toNat = w.toNat / 2 ^ 8 % 2 ^ 16 := by
  rw [aField, BitVec.extractLsb'_toNat, Nat.shiftRight_eq_div_pow]

theorem toNat_bField : (bField w).toNat = w.toNat % 2 ^ 8 := by
  rw [bField, BitVec.extractLsb'_toNat, Nat.shiftRight_zero]

theorem toNat_eq_fields :
    w.toNat = (opField w).toNat * 2 ^ 28 + (zField w).toNat * 2 ^ 24 + (aField w).toNat * 2 ^ 8 + (bField w).toNat := by
  have hlt := w.isLt
  rw [toNat_opField, toNat_zField, toNat_aField, toNat_bField]
  omega

/-- Operand A is its high and its low byte, as REQBUZZ and RDSR read it (rules R64, R67). -/
theorem aField_eq_append_bytes : aField w = aHigh w ++ aLow w := by
  apply BitVec.eq_of_toNat_eq
  rw [toNat_append_eq_add, toNat_aField, aHigh, aLow, BitVec.extractLsb'_toNat, BitVec.extractLsb'_toNat,
    Nat.shiftRight_eq_div_pow, Nat.shiftRight_eq_div_pow]
  omega

theorem toNat_code_oscField : (oscField w).code.toNat = w.toNat / 2 ^ 8 % 2 := by
  rw [oscField, BitVec.getLsbD, Nat.testBit_eq_decide_div_mod_eq]
  split <;> simp_all [Osc.code]

theorem code_osc_inj {x y : Osc} (h : x.code = y.code) : x = y := by
  cases x <;> cases y <;> simp_all [Osc.code]

/-- Operand A as CONFIG reads it: its upper bits and `osc` (rule R63). -/
theorem aField_eq_append_osc : aField w = configZero w ++ (oscField w).code := by
  apply BitVec.eq_of_toNat_eq
  rw [toNat_append_eq_add, toNat_aField, toNat_code_oscField, configZero, BitVec.extractLsb'_toNat,
    Nat.shiftRight_eq_div_pow]
  omega

end Fields

/-- A word is determined by its fields. -/
theorem fields_ext_iff {v w : StimWord} :
    v = w ↔ opField v = opField w ∧ zField v = zField w ∧ aField v = aField w ∧ bField v = bField w := by
  constructor
  · rintro rfl
    exact ⟨rfl, rfl, rfl, rfl⟩
  · rintro ⟨hop, hz, ha, hb⟩
    apply BitVec.eq_of_toNat_eq
    rw [toNat_eq_fields v, toNat_eq_fields w, hop, hz, ha, hb]

/-- The fields of four parts put together are the parts. -/
theorem fields_append (op z : BitVec 4) (a : BitVec 16) (b : Byte) :
    opField (op ++ z ++ a ++ b) = op ∧ zField (op ++ z ++ a ++ b) = z ∧ aField (op ++ z ++ a ++ b) = a ∧
      bField (op ++ z ++ a ++ b) = b := by
  simp only [BitVec.toNat_eq, toNat_opField, toNat_zField, toNat_aField, toNat_bField, toNat_append_eq_add]
  omega

section WordH
variable (op : BitVec 4) (a : BitVec 16) (b : Byte)

@[simp] theorem opField_wordH : opField (wordH op a b) = op :=
  have ⟨hop, _, _, _⟩ := fields_append op 0#4 a b
  hop

@[simp] theorem zField_wordH : zField (wordH op a b) = 0#4 :=
  have ⟨_, hz, _, _⟩ := fields_append op 0#4 a b
  hz

@[simp] theorem aField_wordH : aField (wordH op a b) = a :=
  have ⟨_, _, ha, _⟩ := fields_append op 0#4 a b
  ha

@[simp] theorem bField_wordH : bField (wordH op a b) = b :=
  have ⟨_, _, _, hb⟩ := fields_append op 0#4 a b
  hb

theorem aHigh_aLow_wordH (hi lo : Byte) :
    aHigh (wordH op (hi ++ lo) b) = hi ∧ aLow (wordH op (hi ++ lo) b) = lo := by
  have h := aField_eq_append_bytes (wordH op (hi ++ lo) b)
  rw [aField_wordH] at h
  obtain ⟨hhi, hlo⟩ := append_inj h
  exact ⟨hhi.symm, hlo.symm⟩

theorem configZero_oscField_wordH (upper : BitVec 15) (osc : Osc) :
    configZero (wordH op (upper ++ osc.code) b) = upper ∧ oscField (wordH op (upper ++ osc.code) b) = osc := by
  have h := aField_eq_append_osc (wordH op (upper ++ osc.code) b)
  rw [aField_wordH] at h
  obtain ⟨hupper, hosc⟩ := append_inj h
  exact ⟨hupper.symm, code_osc_inj hosc.symm⟩

end WordH

/-- A word with `z = 0` is put together from its other fields. -/
theorem wordH_fields {w : StimWord} (hz : zField w = 0#4) : wordH (opField w) (aField w) (bField w) = w :=
  fields_ext_iff.2 ⟨opField_wordH .., (zField_wordH ..).trans hz.symm, aField_wordH .., bField_wordH ..⟩

/-! ### The decoder and the encoder (rules R61 to R70) -/

/-- Settles O1, operation by operation: the decoder finds in the word the fields that the encoder put there. -/
theorem decodingAnEncodedOperationGivesItBack : Obligations.DecodingAnEncodedOperationGivesItBack := by
  intro i hwf
  cases i with
  | config osc fsel =>
    obtain ⟨hzero, hosc⟩ := configZero_oscField_wordH 0x1#4 fsel 0#15 osc
    simp [encode, decode, decodeStimulus, ifZero, hzero, hosc]
  | reqbuzz freq rpt =>
    obtain ⟨hhigh, hlow⟩ := aHigh_aLow_wordH 0x2#4 rpt 0#8 freq
    simp [encode, decode, decodeStimulus, ifZero, hhigh, hlow]
  | rdsr n =>
    obtain ⟨hhigh, hlow⟩ := aHigh_aLow_wordH 0x7#4 0#8 0#8 n
    simp [encode, decode, decodeStimulus, ifZero, hhigh, hlow]
  | osc n =>
    have hn : n ≠ 0#16 := by simpa [Instr.wf] using hwf
    simp [encode, decode, decodeStimulus, hn]
  | fbwr addr data => simp [encode, decode, decodeStimulus]
  | fbrd addr => simp [encode, decode, decodeStimulus, ifZero]
  | imask | iunmask | dispatch | reset => simp [encode, decode, decodeStimulus, ifZero]
  | schtick | bzadv | rowadv | iack => rfl

theorem ifZero_eq_ok_iff {zero : Bool} {i j : Instr} : ifZero zero i = .ok j ↔ zero = true ∧ i = j := by
  cases zero <;> simp [ifZero]

/-- The word of the fields that the decoder has found. -/
theorem wordH_eq {w : StimWord} {op : BitVec 4} {a : BitVec 16} {b : Byte} (hz : zField w = 0#4)
    (hop : (opField w).toNat = op.toNat) (ha : aField w = a) (hb : bField w = b) : wordH op a b = w := by
  rw [← BitVec.eq_of_toNat_eq hop, ← ha, ← hb, wordH_fields hz]

/-- The four rows of the decoder whose operation has no operand (rule R66). -/
theorem encode_of_noOperands {w : StimWord} {op : BitVec 4} {i j : Instr} (hz : zField w = 0#4)
    (hop : (opField w).toNat = op.toNat) (hwf : j.wf = true) (hcode : encode j = .stimulus (wordH op 0#16 0#8))
    (h : ifZero (aField w == 0#16 && bField w == 0#8) j = .ok i) : i.wf = true ∧ encode i = .stimulus w := by
  obtain ⟨hzero, rfl⟩ := ifZero_eq_ok_iff.1 h
  obtain ⟨ha, hb⟩ := (Bool.and_eq_true _ _).mp hzero
  exact ⟨hwf, hcode.trans (congrArg Code.stimulus (wordH_eq hz hop (eq_of_beq ha) (eq_of_beq hb)))⟩

/-- A stimulus word that decodes is the code of its operation: each row of the decoder checks or takes every field. -/
theorem encode_of_decodeStimulus {w : StimWord} {i : Instr} (h : decodeStimulus w = .ok i) :
    i.wf = true ∧ encode i = .stimulus w := by
  have hbytes := aField_eq_append_bytes w
  have hosc := aField_eq_append_osc w
  unfold decodeStimulus at h
  split at h
  · cases h
  next hz =>
    have hz : zField w = 0#4 := not_not.1 hz
    split at h
    next hop =>
      obtain ⟨hzero, rfl⟩ := ifZero_eq_ok_iff.1 h
      rw [eq_of_beq hzero] at hosc
      exact ⟨rfl, congrArg Code.stimulus (wordH_eq hz hop hosc rfl)⟩
    next hop =>
      obtain ⟨hzero, rfl⟩ := ifZero_eq_ok_iff.1 h
      rw [eq_of_beq hzero] at hbytes
      exact ⟨rfl, congrArg Code.stimulus (wordH_eq hz hop hbytes rfl)⟩
    next hop =>
      cases h
      exact ⟨rfl, congrArg Code.stimulus (wordH_eq hz hop rfl rfl)⟩
    next hop =>
      obtain ⟨hzero, rfl⟩ := ifZero_eq_ok_iff.1 h
      exact ⟨rfl, congrArg Code.stimulus (wordH_eq hz hop rfl (eq_of_beq hzero))⟩
    next hop => exact encode_of_noOperands (op := 0x5#4) hz hop rfl rfl h
    next hop => exact encode_of_noOperands (op := 0x6#4) hz hop rfl rfl h
    next hop =>
      obtain ⟨hzero, rfl⟩ := ifZero_eq_ok_iff.1 h
      obtain ⟨hhigh, hb⟩ := (Bool.and_eq_true _ _).mp hzero
      rw [eq_of_beq hhigh] at hbytes
      exact ⟨rfl, congrArg Code.stimulus (wordH_eq hz hop hbytes (eq_of_beq hb))⟩
    next hop =>
      split at h
      · cases h
      next hb =>
        split at h
        · cases h
        next ha =>
          cases h
          exact ⟨bne_iff_ne.2 ha, congrArg Code.stimulus (wordH_eq hz hop rfl (not_not.1 hb))⟩
    next hop => exact encode_of_noOperands (op := 0x9#4) hz hop rfl rfl h
    next hop => exact encode_of_noOperands (op := 0xF#4) hz hop rfl rfl h
    next => cases h

theorem encode_of_decodeMicro {c : BitVec 3} {i : Instr} (h : decodeMicro c = .ok i) :
    i.wf = true ∧ encode i = .micro c := by
  unfold decodeMicro at h
  split at h <;> cases h
  all_goals exact ⟨rfl, congrArg Code.micro (BitVec.eq_of_toNat_eq (Eq.symm ‹c.toNat = _›))⟩

/-- Settles O2, format by format. -/
theorem encodingADecodedCodeGivesItBack : Obligations.EncodingADecodedCodeGivesItBack := by
  intro c i h
  cases c with
  | stimulus w => exact encode_of_decodeStimulus h
  | micro c => exact encode_of_decodeMicro h

/-- Settles O5: a word that decodes to one of the four is its constant, whose bits 23..0 are 0. -/
theorem wordsOfTheOperationsWithoutOperands : Obligations.WordsOfTheOperationsWithoutOperands := by
  refine ⟨rfl, rfl, rfl, rfl, fun w hw => ?_⟩
  have hne : ∀ (i : Instr) (op : BitVec 4), encode i = .stimulus (wordH op 0#16 0#8) →
      decodeStimulus w ≠ .ok i := by
    intro i op hcode h
    obtain ⟨-, hw'⟩ := encode_of_decodeStimulus h
    obtain rfl : wordH op 0#16 0#8 = w := Code.stimulus.inj (hcode.symm.trans hw')
    exact hw ((by decide : ∀ op, (wordH op 0#16 0#8).extractLsb' 0 24 = 0#24) op)
  exact ⟨hne _ _ rfl, hne _ _ rfl, hne _ _ rfl, hne _ _ rfl⟩

/-- Settles O6, word by word. -/
theorem sampleWordsDecodeToTheirOperations : Obligations.SampleWordsDecodeToTheirOperations :=
  ⟨rfl, rfl, rfl, rfl, rfl, rfl, rfl, rfl, rfl, rfl⟩

/-! ### The legal words (rules R69, R79) -/

/-- The operands that the operation `op` of a stimulus word admits (rules R63 to R68); none where `op` is reserved. -/
def LegalOperands (a b : Nat) : Nat → Prop
  | 0x1 => a < 2
  | 0x2 => a < 256
  | 0x3 => True
  | 0x4 => b = 0
  | 0x5 => a = 0 ∧ b = 0
  | 0x6 => a = 0 ∧ b = 0
  | 0x7 => a < 256 ∧ b = 0
  | 0x8 => b = 0 ∧ a ≠ 0
  | 0x9 => a = 0 ∧ b = 0
  | 0xF => a = 0 ∧ b = 0
  | _ => False

theorem aHigh_eq_zero_iff (w : StimWord) : aHigh w = 0#8 ↔ (aField w).toNat < 256 := by
  rw [aField_eq_append_bytes, toNat_append_eq_add, BitVec.toNat_eq, BitVec.toNat_ofNat]
  omega

theorem configZero_eq_zero_iff (w : StimWord) : configZero w = 0#15 ↔ (aField w).toNat < 2 := by
  rw [aField_eq_append_osc, toNat_append_eq_add, BitVec.toNat_eq, BitVec.toNat_ofNat]
  omega

theorem exists_ifZero_eq_ok_iff {zero : Bool} {i : Instr} : (∃ j, ifZero zero i = .ok j) ↔ zero = true := by
  simp [ifZero_eq_ok_iff]

/-- A check that must not fire before the rest is decoded. -/
theorem exists_guarded_eq_ok_iff {c : Prop} [Decidable c] {e : IllegalWord} {x : Except IllegalWord Instr} :
    (∃ j, (if c then .error e else x) = .ok j) ↔ ¬ c ∧ ∃ j, x = .ok j := by
  split <;> simp_all

/-- The legal words, field by field. -/
theorem decodeStimulus_ok_iff (w : StimWord) :
    (∃ i, decodeStimulus w = .ok i) ↔
      zField w = 0#4 ∧ LegalOperands (aField w).toNat (bField w).toNat (opField w).toNat := by
  have ha : aField w = 0#16 ↔ (aField w).toNat = 0 := BitVec.toNat_eq
  have hb : bField w = 0#8 ↔ (bField w).toNat = 0 := BitVec.toNat_eq
  unfold decodeStimulus
  rw [exists_guarded_eq_ok_iff]
  refine and_congr not_not ?_
  generalize (opField w).toNat = op
  split
  case h_8 =>
    rw [exists_guarded_eq_ok_iff, exists_guarded_eq_ok_iff]
    simp [LegalOperands, ha, hb]
  all_goals simp [LegalOperands, exists_ifZero_eq_ok_iff, aHigh_eq_zero_iff, configZero_eq_zero_iff, ha, hb]

/-- A mask and a pattern select words field by field. -/
theorem select_iff (w mask pattern : StimWord) :
    w &&& mask = pattern ↔
      opField w &&& opField mask = opField pattern ∧ zField w &&& zField mask = zField pattern ∧
        aField w &&& aField mask = aField pattern ∧ bField w &&& bField mask = bField pattern := by
  rw [fields_ext_iff]
  simp only [opField, zField, aField, bField, BitVec.extractLsb'_and]

/-- A field is below a power of two when its bits from there on are 0. -/
theorem and_shiftLeft_eq_zero_iff {n : Nat} (x : BitVec n) (m : Nat) :
    x &&& (BitVec.allOnes n <<< m) = 0#n ↔ x.toNat < 2 ^ m := by
  constructor
  · intro h
    refine Nat.lt_pow_two_of_testBit _ fun i hi => ?_
    by_cases hn : i < n
    · have hbit := congrArg (BitVec.getLsbD · i) h
      have him : i - m < n := by omega
      show x.getLsbD i = false
      simpa [hn, Nat.not_lt.2 hi, him, -BitVec.getLsbD_eq_getElem] using hbit
    · exact x.getLsbD_of_ge i (Nat.le_of_not_lt hn)
  · intro h
    refine BitVec.eq_of_getLsbD_eq fun i hi => ?_
    by_cases hm : i < m
    · simp [hm]
    · have hbit : x.getLsbD i = false :=
        Nat.testBit_lt_two_pow (Nat.lt_of_lt_of_le h (Nat.pow_le_pow_right (by decide) (Nat.le_of_not_lt hm)))
      simp [hbit]

/-- The mask of a row that fixes `op` and `z`, and the bits of the operands from `m` and from `n` on. -/
def rowMask (m n : Nat) : StimWord :=
  BitVec.allOnes 4 ++ BitVec.allOnes 4 ++ (BitVec.allOnes 16 <<< m) ++ (BitVec.allOnes 8 <<< n)

/-- Each row of the table fixes `op` and `z` and bounds the operands by powers of two. -/
theorem opcodeRows_eq :
    opcodeRows =
      [⟨rowMask 1 8, wordH 0x1#4 0#16 0#8⟩, ⟨rowMask 8 8, wordH 0x2#4 0#16 0#8⟩, ⟨rowMask 16 8, wordH 0x3#4 0#16 0#8⟩,
        ⟨rowMask 16 0, wordH 0x4#4 0#16 0#8⟩, ⟨rowMask 0 0, wordH 0x5#4 0#16 0#8⟩, ⟨rowMask 0 0, wordH 0x6#4 0#16 0#8⟩,
        ⟨rowMask 8 0, wordH 0x7#4 0#16 0#8⟩, ⟨rowMask 16 0, wordH 0x8#4 0#16 0#8⟩, ⟨rowMask 0 0, wordH 0x9#4 0#16 0#8⟩,
        ⟨rowMask 0 0, wordH 0xF#4 0#16 0#8⟩] := by decide

/-- A row selects the words with its `op`, `z = 0` and operands below its bounds. -/
theorem and_rowMask_eq_iff (w : StimWord) (m n : Nat) (op : BitVec 4) :
    w &&& rowMask m n = wordH op 0#16 0#8 ↔
      zField w = 0#4 ∧ (opField w).toNat = op.toNat ∧ (aField w).toNat < 2 ^ m ∧ (bField w).toNat < 2 ^ n := by
  obtain ⟨hop, hz, ha, hb⟩ :=
    fields_append (BitVec.allOnes 4) (BitVec.allOnes 4) (BitVec.allOnes 16 <<< m) (BitVec.allOnes 8 <<< n)
  rw [← rowMask] at hop hz ha hb
  rw [select_iff, hop, hz, ha, hb, opField_wordH, zField_wordH, aField_wordH, bField_wordH, BitVec.and_allOnes,
    BitVec.and_allOnes, and_shiftLeft_eq_zero_iff, and_shiftLeft_eq_zero_iff, and_left_comm,
    BitVec.toNat_eq (x := opField w)]

theorem eq_oscZero_iff (w : StimWord) :
    w = 0x80000000#32 ↔
      zField w = 0#4 ∧ (opField w).toNat = 8 ∧ (aField w).toNat = 0 ∧ (bField w).toNat = 0 := by
  rw [fields_ext_iff, and_left_comm]
  exact and_congr_right' (and_congr BitVec.toNat_eq (and_congr BitVec.toNat_eq BitVec.toNat_eq))

/-- The words that select a row and are not `OSC 0`, field by field. -/
theorem exists_row_iff (w : StimWord) :
    (∃ r ∈ opcodeRows, w &&& r.mask = r.pattern) ∧ w ≠ 0x80000000#32 ↔
      zField w = 0#4 ∧ LegalOperands (aField w).toNat (bField w).toNat (opField w).toNat := by
  have ha := (aField w).isLt
  have hb := (bField w).isLt
  rw [ne_eq, eq_oscZero_iff, opcodeRows_eq]
  simp only [List.mem_cons, List.not_mem_nil, or_false, exists_eq_or_imp, exists_eq_left, and_rowMask_eq_iff,
    BitVec.toNat_ofNat, ← and_or_left, and_assoc, ha, hb, pow_zero, Nat.lt_one_iff, and_true]
  refine and_congr_right fun hz => ?_
  have hop := (opField w).isLt
  generalize (opField w).toNat = op at hop ⊢
  interval_cases op <;> simp [LegalOperands, hz]
  -- OSC is left, the one row that holds the excluded word
  omega

/-- Every row fixes all of `op`. -/
theorem opField_of_selects {w : StimWord} {r : OpcodeRow} (hr : r ∈ opcodeRows) (h : w &&& r.mask = r.pattern) :
    opField w = opField r.pattern := by
  have hmask : ∀ r ∈ opcodeRows, opField r.mask = BitVec.allOnes 4 := by decide
  obtain ⟨hop, -⟩ := (select_iff _ _ _).1 h
  rwa [hmask r hr, BitVec.and_allOnes] at hop

/-- Settles O3: both sides say that the fields are legal, and no two rows have the same `op`. -/
theorem legalWordsAreThoseOfTheOpcodeTable : Obligations.LegalWordsAreThoseOfTheOpcodeTable := by
  have hdistinct : opcodeRows.Pairwise fun r q => opField r.pattern ≠ opField q.pattern := by decide
  refine ⟨fun w => (decodeStimulus_ok_iff w).trans (exists_row_iff w).symm, ?_⟩
  exact hdistinct.imp_of_mem fun hr hq hne w ⟨hwr, hwq⟩ =>
    hne ((opField_of_selects hr hwr).symm.trans (opField_of_selects hq hwq))

theorem decodeStimulus_error_iff (w : StimWord) :
    (∃ e, decodeStimulus w = .error e) ↔ ¬ ∃ i, decodeStimulus w = .ok i := by
  cases decodeStimulus w <;> simp

/-- Rule R69 but for `z`: the reserved codes of `op`, and what an operand must not be. -/
theorem not_legalOperands_iff {op a b : Nat} (hop : op < 16) :
    ¬ LegalOperands a b op ↔
      op = 0 ∨ (0xA ≤ op ∧ op ≤ 0xE) ∨ (op = 1 ∧ 2 ≤ a) ∨ (op = 2 ∧ 256 ≤ a) ∨ (op = 4 ∧ b ≠ 0) ∨
        (op = 5 ∧ (a ≠ 0 ∨ b ≠ 0)) ∨ (op = 6 ∧ (a ≠ 0 ∨ b ≠ 0)) ∨ (op = 7 ∧ (256 ≤ a ∨ b ≠ 0)) ∨
        (op = 8 ∧ (a = 0 ∨ b ≠ 0)) ∨ (op = 9 ∧ (a ≠ 0 ∨ b ≠ 0)) ∨ (op = 0xF ∧ (a ≠ 0 ∨ b ≠ 0)) := by
  interval_cases op <;> simp [LegalOperands] <;> omega

/-! ### What a step does (rules R69, R79, R210) -/

theorem step_of_word {s : State} {w : StimWord} {rest : List StimWord} {i : Instr} (hb : s.dstep = .outside)
    (hs : s.stim = w :: rest) (hw : decodeStimulus w = .ok i) : step s = exec i { s with stim := rest } := by
  simp only [step, hb, DStep.micro_outside, fetch, hs, hw]

theorem step_of_illegal {s : State} {w : StimWord} {rest : List StimWord} {e : IllegalWord}
    (hb : s.dstep = .outside) (hs : s.stim = w :: rest) (hw : decodeStimulus w = .error e) :
    step s = .refused .illegalStimulus := by
  simp only [step, hb, DStep.micro_outside, fetch, hs, hw]

theorem step_of_endOfStimulus {s : State} (hb : s.dstep = .outside) (hs : s.stim = []) :
    step s = .refused .endOfStimulus := by
  simp only [step, hb, DStep.micro_outside, fetch, hs]

/-- Inside the handler a step is its micro-operation, after which `dstep` advances. -/
theorem step_of_micro {s t : State} {i : Instr} (hi : s.dstep.micro = some i) (h : exec i s = .next t) :
    step s = .next (nextDstep s.dstep t) := by
  simp only [step, hi, h, Answer.thenDo]

/-- Settles O8: the two ends of the stream. -/
theorem aStepPerformsTheNextStimulusWord : Obligations.AStepPerformsTheNextStimulusWord :=
  ⟨fun _ _ _ _ => step_of_word, fun _ => step_of_endOfStimulus⟩

/-- Settles O9, micro-operation by micro-operation. -/
theorem aStepInsideTheHandlerPerformsItsMicroOperation :
    Obligations.AStepInsideTheHandlerPerformsItsMicroOperation := by
  intro s t
  have hstep : ∀ (d : DStep) (i : Instr), d.micro = some i → s.dstep = d → exec i s = .next t →
      step s = .next (nextDstep d t) := by
    rintro _ i hi rfl h
    exact step_of_micro hi h
  exact ⟨hstep .schtick _ rfl, hstep .bzadv _ rfl, hstep .rowadv _ rfl, hstep .iack _ rfl⟩

theorem exec_oscZero (s : State) : exec (.osc 0#16) s = .refused .illegalStimulus := rfl

/-- Settles O4: the illegal words are those whose fields are not legal, and a step refuses them. -/
theorem illegalWordsAreRefused : Obligations.IllegalWordsAreRefused := by
  refine ⟨fun w => ?_, ⟨_, rfl⟩, ⟨_, rfl⟩, fun _ _ _ _ => step_of_illegal, exec_oscZero⟩
  rw [decodeStimulus_error_iff, decodeStimulus_ok_iff, not_and_or, not_legalOperands_iff (opField w).isLt]
  exact or_left_comm.trans (or_congr_right or_left_comm)

/-! ### Which operation is enabled (rule R80) -/

theorem exec_of_enabled {i : Instr} {s : State} (hwf : i.wf = true) (h : enabled i s = true) :
    exec i s = .next (effect i s) := exec_next_iff.2 ⟨hwf, h, rfl⟩

/-- An operation of the block that is not enabled is refused (rule R80). -/
theorem exec_of_not_enabled {i : Instr} {s : State} (hwf : i.wf = true) (h : enabled i s = false) :
    exec i s = .refused .notEnabled := by
  cases i with
  | osc n => cases h
  | reset => cases h
  | _ => exact perform_of_not_enabled h

theorem enabled_host_iff {i : Instr} {s : State} (hi : agentOf i = .host) :
    enabled i s = true ↔ ¬ InterruptWaits s := by
  rw [← deliverable_eq_true_iff, enabled, hi, Bool.not_eq_true, Bool.not_eq_true']

theorem enabled_micro_iff {i : Instr} {s : State} (hi : i.isStimulus = false) :
    enabled i s = true ↔ s.dstep = DStep.ofInstr i := by
  cases i with
  | schtick | bzadv | rowadv | iack => exact beq_iff_eq
  | _ => cases hi

/-- Settles O60: the four are the operations that no stimulus word carries. -/
theorem microOperationsRunExactlyAtTheirStep : Obligations.MicroOperationsRunExactlyAtTheirStep := by
  intro s i hi
  have hmicro : i.isStimulus = false ∧ i.wf = true := by
    rcases hi with rfl | rfl | rfl | rfl <;> exact ⟨rfl, rfl⟩
  obtain ⟨hstim, hwf⟩ := hmicro
  have henabled := enabled_micro_iff (s := s) hstim
  exact ⟨fun h => ⟨_, exec_of_enabled hwf (henabled.2 h)⟩,
    fun h => exec_of_not_enabled hwf (Bool.eq_false_iff.2 fun h' => h (henabled.1 h'))⟩

/-- Settles O10, agent by agent. -/
theorem operationsRunExactlyWhenEnabled : Obligations.OperationsRunExactlyWhenEnabled := by
  intro s
  have hdispatch : enabled .dispatch s = true ↔ InterruptWaits s := deliverable_eq_true_iff
  refine ⟨⟨_, exec_reset s⟩, fun n hn => ⟨_, exec_of_enabled (bne_iff_ne.2 hn) rfl⟩,
    fun h => ⟨_, exec_of_enabled rfl (hdispatch.2 h)⟩,
    fun h => exec_of_not_enabled rfl (Bool.eq_false_iff.2 fun h' => h (hdispatch.1 h')), fun i hi => ?_,
    fun _ _ _ => step_of_illegal⟩
  have hhost : agentOf i = .host ∧ i.wf = true := by
    rcases hi with rfl | rfl | ⟨_, _, rfl⟩ | ⟨_, _, rfl⟩ | ⟨_, _, rfl⟩ | ⟨_, rfl⟩ | ⟨_, rfl⟩ <;> exact ⟨rfl, rfl⟩
  obtain ⟨hagent, hwf⟩ := hhost
  have henabled := enabled_host_iff (s := s) hagent
  exact ⟨fun h => ⟨_, exec_of_enabled hwf (henabled.2 h)⟩,
    fun h => exec_of_not_enabled hwf (Bool.eq_false_iff.2 fun h' => henabled.1 h' h)⟩

/-! ### The words of the output events (rule R72) -/

theorem word_bz (on : Bool) (freq : Byte) :
    (Event.bz on freq).word = BitVec.ofNat 16 (0x2000 + 0x100 * on.toNat + freq.toNat) := by
  have hon := on.toNat_le
  apply BitVec.eq_of_toNat_eq
  simp only [Event.word, toNat_append_eq_add, BitVec.toNat_ofNat, BitVec.toNat_ofBool]
  omega

theorem word_rowsel (x : Byte) : (Event.rowsel x).word = BitVec.ofNat 16 (0x6000 + x.toNat) := by
  apply BitVec.eq_of_toNat_eq
  simp only [Event.word, toNat_append_eq_add, BitVec.toNat_ofNat]
  omega

/-- Settles O7, event by event. -/
theorem eventWordsAreKindAndArgument : Obligations.EventWordsAreKindAndArgument := by
  refine ⟨rfl, rfl, word_bz, by decide, by decide, by decide, word_rowsel, fun e s => ?_⟩
  cases e <;> rfl

/-! ### OSC as repeated cycles (rules R68, R78) -/

/-- `k` oscillator cycles: the timer runs if there is a plan (40_timer_reload_configurator.md rules R92, R95). -/
def oscCycles (k : Nat) (s : State) : State :=
  if s.planValid then { s with timer := timerCycles s.plan.timPsc (reloadOf s.plan) k s.timer } else s

theorem oscCycles_of_plan {s : State} (h : s.planValid = true) (k : Nat) :
    oscCycles k s = { s with timer := timerCycles s.plan.timPsc (reloadOf s.plan) k s.timer } := if_pos h

theorem oscCycles_of_noPlan {s : State} (h : s.planValid = false) (k : Nat) : oscCycles k s = s := by
  rw [oscCycles, h]
  rfl

theorem oscCycles_zero (s : State) : oscCycles 0 s = s := ite_self s

theorem oscCycles_add (m n : Nat) (s : State) : oscCycles (m + n) s = oscCycles n (oscCycles m s) := by
  cases h : s.planValid with
  | true =>
    rw [oscCycles_of_plan h, oscCycles_of_plan h, timerCycles_add]
    exact (if_pos h).symm
  | false => rw [oscCycles_of_noPlan h, oscCycles_of_noPlan h, oscCycles_of_noPlan h]

theorem exec_osc {n : BitVec 16} (hn : n ≠ 0#16) (s : State) : exec (.osc n) s = .next (oscCycles n.toNat s) := by
  rw [exec_of_enabled (i := .osc n) (bne_iff_ne.2 hn) rfl, effect, oscOp, oscCycles, timerRun_eq_cycles]

/-- A list of OSC operations is its cycles, added up. -/
theorem runInstrs_osc {ns : List (BitVec 16)} (h : ∀ n ∈ ns, n ≠ 0#16) (s : State) :
    runInstrs (ns.map .osc) s = .next (oscCycles (ns.map BitVec.toNat).sum s) := by
  induction ns generalizing s with
  | nil => rw [List.map_nil, List.map_nil, List.sum_nil, oscCycles_zero, runInstrs]
  | cons n ns ih =>
    obtain ⟨hn, hns⟩ := List.forall_mem_cons.1 h
    rw [List.map_cons, runInstrs, exec_osc hn, andThen_next, ih hns, ← oscCycles_add, List.map_cons, List.sum_cons]

/-- Settles O15: both sides are `n` cycles. -/
theorem oscIsRepeatedSingleCycles : Obligations.OscIsRepeatedSingleCycles := by
  intro s n hn
  have hones : ∀ m ∈ List.replicate n.toNat 1#16, m ≠ 0#16 := by simp
  have hrun := runInstrs_osc hones s
  rw [List.map_replicate, List.map_replicate] at hrun
  rw [exec_osc hn, hrun, List.sum_replicate]
  simp

/-! ### OVF (rule R78) -/

/-- The operands of the OSC operations that make `k` cycles. -/
def oscOperands (k : Nat) : List (BitVec 16) :=
  List.replicate (k / 65535) 65535#16 ++ (if k % 65535 = 0 then [] else [BitVec.ofNat 16 (k % 65535)])

theorem oscSplit_eq (k : Nat) : oscSplit k = (oscOperands k).map .osc := by
  rw [oscSplit, oscOperands, List.map_append, List.map_replicate]
  split <;> rfl

theorem sum_oscOperands (k : Nat) : ((oscOperands k).map BitVec.toNat).sum = k := by
  have hmod : (BitVec.ofNat 16 (k % 65535)).toNat = k % 65535 := by
    rw [BitVec.toNat_ofNat]
    omega
  rw [oscOperands, List.map_append, List.map_replicate, List.sum_append, List.sum_replicate]
  split
  next h => simp; omega
  next h => simp [hmod]; omega

theorem ne_zero_of_mem_oscOperands {k : Nat} {n : BitVec 16} (h : n ∈ oscOperands k) : n ≠ 0#16 := by
  rw [oscOperands, List.mem_append] at h
  rcases h with h | h
  · rw [List.eq_of_mem_replicate h]
    decide
  · split at h
    · cases h
    next hk =>
      rw [List.mem_singleton.1 h, ne_eq, BitVec.toNat_eq, BitVec.toNat_ofNat, BitVec.toNat_ofNat]
      omega

theorem runInstrs_oscSplit (k : Nat) (s : State) : runInstrs (oscSplit k) s = .next (oscCycles k s) := by
  rw [oscSplit_eq, runInstrs_osc fun _ => ne_zero_of_mem_oscOperands, sum_oscOperands]

/-- Up to the next overflow there remains what the place in the period lacks of the period. -/
theorem timerPlace_add_cyclesToOverflow {s : State}
    (h : countersInRange s.plan.timPsc (reloadOf s.plan) s.timer = true) :
    timerPlace s.plan.timPsc s.timer + cyclesToOverflow s =
      s.plan.timPsc.toNat * ((reloadOf s.plan).toNat + 1) := by
  simp only [countersInRange, Bool.and_eq_true, decide_eq_true_eq] at h
  obtain ⟨hp, hc⟩ := h
  obtain ⟨d, hd⟩ := Nat.exists_eq_add_of_le hc
  rw [timerPlace, cyclesToOverflow, hd, Nat.add_sub_cancel_left]
  have hexpand : s.plan.timPsc.toNat * (s.timer.timCnt.toNat + d + 1) =
      s.timer.timCnt.toNat * s.plan.timPsc.toNat + d * s.plan.timPsc.toNat + s.plan.timPsc.toNat := by ring
  rw [hexpand]
  omega

/-- Cycles that complete the period, with nothing pending. -/
theorem timerCycles_of_period {psc : BitVec 8} {reload : BitVec 16} {t : TimerRegs} {k : Nat}
    (hrange : countersInRange psc reload t = true) (hpending : t.irqPending = false)
    (hk : timerPlace psc t + k = psc.toNat * (reload.toNat + 1)) :
    timerCycles psc reload k t = { t with timCnt := 0#16, timPcnt := 0#8, irqPending := true } := by
  have hpos : 0 < psc.toNat * (reload.toNat + 1) := Nat.zero_lt_of_lt (timerPlace_lt hrange)
  rw [timerPlace] at hk
  rw [← timerJump_eq_cycles k hrange]
  simp [timerJump, hk, hpending, Nat.div_self hpos]

/-- Fewer cycles than complete the period leave nothing pending. -/
theorem timerCycles_within_period {psc : BitVec 8} {reload : BitVec 16} {t : TimerRegs} {k : Nat}
    (hrange : countersInRange psc reload t = true) (hpending : t.irqPending = false)
    (hk : timerPlace psc t + k < psc.toNat * (reload.toNat + 1)) :
    (timerCycles psc reload k t).irqPending = false := by
  rw [timerPlace] at hk
  rw [← timerJump_eq_cycles k hrange]
  simp [timerJump, Nat.div_eq_of_lt hk, hpending]

/-- Settles O18: OVF is the cycles that complete the period. -/
theorem ovfRunsUpToTheNextOverflow : Obligations.OvfRunsUpToTheNextOverflow := by
  intro s hvalid hpcnt hcnt hpending
  have hrange : countersInRange s.plan.timPsc (reloadOf s.plan) s.timer = true := by
    simp [countersInRange, hpcnt, hcnt]
  have hperiod := timerPlace_add_cyclesToOverflow hrange
  refine ⟨⟨oscSplit (cyclesToOverflow s), if_pos hvalid, ?_⟩, fun n hn hlt => ⟨_, exec_osc hn s, ?_⟩⟩
  · rw [runInstrs_oscSplit, oscCycles_of_plan hvalid, timerCycles_of_period hrange hpending hperiod]
  · rw [oscCycles_of_plan hvalid]
    exact timerCycles_within_period hrange hpending (hperiod ▸ Nat.add_lt_add_left hlt _)

/-! ### FBROW (rule R78) -/

theorem andThen_assoc (f g : State → Answer) (a : Answer) :
    Answer.andThen g (Answer.andThen f a) = Answer.andThen (fun s => Answer.andThen g (f s)) a := by
  cases a <;> rfl

/-- A list of operations is its first part and then the rest. -/
theorem runInstrs_append (l₁ l₂ : List Instr) (s : State) :
    runInstrs (l₁ ++ l₂) s = Answer.andThen (runInstrs l₂) (runInstrs l₁ s) := by
  induction l₁ generalizing s with
  | nil => rfl
  | cons i l₁ ih =>
    have hrest : runInstrs (l₁ ++ l₂) = fun t => Answer.andThen (runInstrs l₂) (runInstrs l₁ t) := funext ih
    rw [List.cons_append, runInstrs, runInstrs, hrest, andThen_assoc]

/-- Two addresses of the byte map are the same only for the same plane, row and byte (20_memory.md rule R43). -/
theorem fbAddr_inj {p : RawParams} {plane y k plane' y' k' : Nat} (hy : y < p.maxY) (hk : k < rowBytes p)
    (hy' : y' < p.maxY) (hk' : k' < rowBytes p) (h : fbAddr p plane y k = fbAddr p plane' y' k') :
    plane = plane' ∧ y = y' ∧ k = k' := by
  have hplane := congrArg (planeOf p) h
  have hrow := congrArg (rowOf p) h
  have hbyte := congrArg (byteOf p) h
  rw [planeOf_fbAddr hy hk, planeOf_fbAddr hy' hk'] at hplane
  rw [rowOf_fbAddr hy hk, rowOf_fbAddr hy' hk'] at hrow
  rw [byteOf_fbAddr hy hk, byteOf_fbAddr hy' hk'] at hbyte
  exact ⟨hplane, hrow, hbyte⟩

theorem byteIndex_lt {p : RawParams} {c : Nat} (hc : c < p.sizeX) : c / 8 < rowBytes p := by
  unfold rowBytes
  omega

/-- A write of byte `k` of a row sets the columns of that byte and no others. -/
theorem pixel_memWrite {s : State} {plane y k plane' y' c : Nat} (v : Byte) (hy : y < s.params.maxY)
    (hk : k < rowBytes s.params.toRawParams) (hy' : y' < s.params.maxY) (hc : c < s.params.sizeX) :
    pixel (memWrite (fbAddr s.params.toRawParams plane y k) v s) plane' y' c =
      if plane' = plane ∧ y' = y ∧ c / 8 = k then v.getLsbD (c % 8) else pixel s plane' y' c := by
  have hk' : c / 8 < rowBytes s.params.toRawParams := byteIndex_lt hc
  rw [pixel, memWrite_params]
  split
  next h =>
    obtain ⟨rfl, rfl, rfl⟩ := h
    have hbyte : fbAddr s.params.toRawParams plane' y' (c / 8) % rowBytes s.params.toRawParams = c / 8 :=
      byteOf_fbAddr hy' hk'
    rw [memRead_memWrite_same, BitVec.getLsbD_and, columnMask_getLsbD, hbyte, Nat.div_add_mod, decide_eq_true hc,
      decide_eq_true (Nat.mod_lt _ (by decide)), Bool.and_true, Bool.and_true]
  next h =>
    rw [memRead_memWrite_other _ _ fun e => h (fbAddr_inj hy' hk' hy hk e), pixel]

/-- `t` is `s` but for the FrameBuffer and the response. -/
def SameButStore (s t : State) : Prop := t = { s with fb := t.fb, resp := t.resp }

theorem SameButStore.params {s t : State} (h : SameButStore s t) : t.params = s.params := by
  unfold SameButStore at h
  rw [h]

theorem SameButStore.intMask {s t : State} (h : SameButStore s t) : t.intMask = s.intMask := by
  unfold SameButStore at h
  rw [h]

theorem SameButStore.trans {s t u : State} (h₁ : SameButStore s t) (h₂ : SameButStore t u) : SameButStore s u := by
  unfold SameButStore at *
  rw [h₂, h₁]

/-- FBWR inside the FrameBuffer, with interrupts masked. -/
theorem exec_fbwr_of_masked {s : State} {a : Nat} (hmask : s.intMask = true) (ha : a < fbBytes s.params.toRawParams)
    (data : Byte) :
    exec (.fbwr (BitVec.ofNat 16 a) data) s = .next (respond [respOK] (memWrite a data s)) := by
  have hsize := s.params.fbBytes_le
  have haddr : (BitVec.ofNat 16 a).toNat = a := by
    rw [BitVec.toNat_ofNat]
    omega
  have hinside : inFrameBuffer s.params.toRawParams (BitVec.ofNat 16 a) = true :=
    inFrameBuffer_iff.2 (haddr.symm ▸ ha)
  have henabled : enabled (.fbwr (BitVec.ofNat 16 a) data) s = true :=
    enabled_of_host rfl fun h => Bool.noConfusion (hmask.symm.trans h.2)
  rw [exec_of_enabled rfl henabled, effect, fbwrOp_of_inside hinside, haddr]

/-- Byte `k` of a row's value. -/
def rowByte (v k : Nat) : Byte := BitVec.ofNat 8 (v / 2 ^ (8 * k))

theorem getLsbD_rowByte (v c : Nat) : (rowByte v (c / 8)).getLsbD (c % 8) = v.testBit c := by
  rw [rowByte, BitVec.getLsbD_ofNat, Nat.testBit_div_two_pow, Nat.mod_add_div,
    decide_eq_true (Nat.mod_lt _ (by decide)), Bool.true_and]

/-- The write of one byte of a row's value. -/
def byteWrite (p : RawParams) (plane y v k : Nat) : Instr :=
  .fbwr (BitVec.ofNat 16 (fbAddr p plane y k)) (rowByte v k)

theorem rowWrites_eq (p : RawParams) (plane y v : Nat) :
    rowWrites p plane y v = (List.range (rowBytes p)).map (byteWrite p plane y v) := rfl

/-- `t` is `s` but for the response and the first `n` bytes of row `y` of a plane, which show the bits of `v`. -/
structure RowWritten (plane y v n : Nat) (s t : State) : Prop where
  same : SameButStore s t
  pixels : ∀ plane' y' c, y' < s.params.maxY → c < s.params.sizeX →
    pixel t plane' y' c = if plane' = plane ∧ y' = y ∧ c / 8 < n then v.testBit c else pixel s plane' y' c

theorem RowWritten.zero (plane y v : Nat) (s : State) : RowWritten plane y v 0 s s where
  same := rfl
  pixels _ _ _ _ _ := (if_neg fun h => Nat.not_lt_zero _ h.2.2).symm

/-- One byte more. -/
theorem RowWritten.succ {plane y v n : Nat} {s t : State} (h : RowWritten plane y v n s t) (hy : y < s.params.maxY)
    (hn : n < rowBytes s.params.toRawParams) :
    RowWritten plane y v (n + 1) s
      (respond [respOK] (memWrite (fbAddr s.params.toRawParams plane y n) (rowByte v n) t)) where
  same := h.same.trans rfl
  pixels plane' y' c hy' hc := by
    have hold := h.pixels plane' y' c hy' hc
    rw [← h.same.params] at hy hn hy' hc ⊢
    refine (pixel_memWrite (rowByte v n) hy hn hy' hc).trans ?_
    by_cases hlast : plane' = plane ∧ y' = y ∧ c / 8 = n
    · obtain ⟨rfl, rfl, rfl⟩ := hlast
      rw [if_pos ⟨rfl, rfl, rfl⟩, if_pos ⟨rfl, rfl, Nat.lt_succ_self _⟩, getLsbD_rowByte]
    · have hbytes : plane' = plane ∧ y' = y ∧ c / 8 < n + 1 ↔ plane' = plane ∧ y' = y ∧ c / 8 < n := by omega
      rw [if_neg hlast, hold]
      simp only [hbytes]

/-- The first `n` byte writes of a row, with interrupts masked. -/
theorem run_byteWrites {s : State} {plane y : Nat} (v : Nat) (hmask : s.intMask = true) (hplane : plane < 3)
    (hy : y < s.params.maxY) {n : Nat} (hn : n ≤ rowBytes s.params.toRawParams) :
    ∃ t, runInstrs ((List.range n).map (byteWrite s.params.toRawParams plane y v)) s = .next t ∧
      RowWritten plane y v n s t := by
  induction n with
  | zero => exact ⟨s, rfl, .zero plane y v s⟩
  | succ n ih =>
    obtain ⟨t, hrun, ht⟩ := ih (Nat.le_of_succ_le hn)
    have haddr := fbAddr_lt hplane hy (Nat.lt_of_succ_le hn)
    have hexec := exec_fbwr_of_masked (ht.same.intMask.trans hmask) (ht.same.params.symm ▸ haddr) (rowByte v n)
    refine ⟨_, ?_, ht.succ hy (Nat.lt_of_succ_le hn)⟩
    rw [ht.same.params] at hexec
    rw [List.range_succ, List.map_append, runInstrs_append, hrun]
    exact congrArg (Answer.andThen (runInstrs [])) hexec

/-- All the byte writes of a row: every column is in one of them. -/
theorem run_rowWrites {s : State} {p : Params} {plane y : Nat} (v : Nat) (hp : s.params = p) (hmask : s.intMask = true)
    (hplane : plane < 3) (hy : y < p.maxY) :
    ∃ t, runInstrs (rowWrites p.toRawParams plane y v) s = .next t ∧ SameButStore s t ∧
      ∀ plane' y' c, y' < p.maxY → c < p.sizeX →
        pixel t plane' y' c = if plane' = plane ∧ y' = y then v.testBit c else pixel s plane' y' c := by
  subst hp
  obtain ⟨t, hrun, hsame, hpixels⟩ := run_byteWrites v hmask hplane hy (Nat.le_refl _)
  refine ⟨t, hrun, hsame, fun plane' y' c hy' hc => ?_⟩
  rw [hpixels plane' y' c hy' hc]
  simp only [byteIndex_lt hc, and_true]

theorem length_fbrowInstrs (p : RawParams) (y r g b : Nat) :
    (fbrowInstrs p y r g b).length = 3 * rowBytes p + 2 := by
  simp [fbrowInstrs, rowWrites_eq]
  omega

theorem expand_fbrow {s : State} {y r g b : Nat} (hmask : s.intMask = false) (hy : y < s.params.maxY)
    (hr : r < 2 ^ s.params.sizeX) (hg : g < 2 ^ s.params.sizeX) (hb : b < 2 ^ s.params.sizeX) :
    (Pseudo.fbrow y r g b).expand s = some (fbrowInstrs s.params.toRawParams y r g b) := by
  simp [Pseudo.expand, expandFbrow, hmask, hy, hr, hg, hb]

/-- The three values of a row, written one after another with interrupts masked. -/
theorem run_threeRows {s : State} {y : Nat} (r g b : Nat) (hmask : s.intMask = true) (hy : y < s.params.maxY) :
    ∃ t, runInstrs (rowWrites s.params.toRawParams 0 y r ++ rowWrites s.params.toRawParams 1 y g ++
        rowWrites s.params.toRawParams 2 y b) s = .next t ∧ SameButStore s t ∧
      (∀ c, c < s.params.sizeX →
        pixel t 0 y c = r.testBit c ∧ pixel t 1 y c = g.testBit c ∧ pixel t 2 y c = b.testBit c) ∧
      (∀ plane y' c, y' < s.params.maxY → c < s.params.sizeX → y' ≠ y → pixel t plane y' c = pixel s plane y' c) := by
  obtain ⟨t₀, hrun₀, hsame₀, hpixels₀⟩ := run_rowWrites (plane := 0) r rfl hmask (by decide) hy
  obtain ⟨t₁, hrun₁, hsame₁, hpixels₁⟩ :=
    run_rowWrites (plane := 1) g hsame₀.params (hsame₀.intMask.trans hmask) (by decide) hy
  have hsame₀₁ := hsame₀.trans hsame₁
  obtain ⟨t₂, hrun₂, hsame₂, hpixels₂⟩ :=
    run_rowWrites (plane := 2) b hsame₀₁.params (hsame₀₁.intMask.trans hmask) (by decide) hy
  refine ⟨t₂, ?_, hsame₀₁.trans hsame₂, fun c hc => ?_, fun plane y' c hy' hc hne => ?_⟩
  · rw [runInstrs_append, runInstrs_append, hrun₀, andThen_next, hrun₁, andThen_next, hrun₂]
  · simp [hpixels₂ _ y c hy hc, hpixels₁ _ y c hy hc, hpixels₀ _ y c hy hc]
  · simp [hpixels₂ _ y' c hy' hc, hpixels₁ _ y' c hy' hc, hpixels₀ _ y' c hy' hc, hne]

/-- IUNMASK undoes the IMASK before the writes. -/
theorem iunmaskOp_of_sameButStore {s t : State} (hmask : s.intMask = false) (h : SameButStore (imaskOp s) t) :
    iunmaskOp t = { s with fb := t.fb, resp := [] } := by
  have hstate : iunmaskOp t = { s with intMask := false, fb := t.fb, resp := [] } := by
    unfold SameButStore at h
    rw [h]
    rfl
  rw [hstate, ← hmask]

/-- Settles O45: three rows of byte writes between IMASK and IUNMASK. -/
theorem fbrowWritesOneWholeRow : Obligations.FbrowWritesOneWholeRow := by
  intro s y r g b hmask hpending hy hr hg hb
  have himask : exec .imask s = .next (imaskOp s) :=
    exec_of_enabled rfl (enabled_of_host rfl fun h => Bool.noConfusion (hpending.symm.trans h.1))
  obtain ⟨t, hrun, hsame, hrow, hother⟩ := run_threeRows (s := imaskOp s) r g b rfl hy
  have hiunmask : exec .iunmask t = .next (iunmaskOp t) :=
    exec_of_enabled rfl (enabled_of_host rfl fun h => Bool.noConfusion (hsame.intMask.symm.trans h.2))
  refine ⟨_, iunmaskOp t, expand_fbrow hmask hy hr hg hb, length_fbrowInstrs _ y r g b, ?_,
    iunmaskOp_of_sameButStore hmask hsame, hrow, fun plane y' c _ => hother plane y' c⟩
  rw [fbrowInstrs, runInstrs, himask, andThen_next, runInstrs_append]
  calc Answer.andThen (runInstrs [.iunmask]) _ = Answer.andThen (runInstrs [.iunmask]) (.next t) := congrArg _ hrun
    _ = Answer.andThen (runInstrs []) (exec .iunmask t) := rfl
    _ = .next (iunmaskOp t) := by rw [hiunmask, andThen_next, runInstrs]

end Sys2Proof.Proofs
end

section
/-! PROOFS. The timer's rules (40_timer_reload_configurator.md). What CONFIG writes, as numbers, and the period
it programs; one cycle of the timer, case by case; any number of cycles, by the place in the period they lead to and the
periods they complete. -/

namespace Sys2Proof.Proofs

open Sys2Proof.Machine Sys2Proof.Safety

/-! ### CONFIG (rules R86 to R91) -/

theorem exec_config {s : State} (h : ¬ InterruptWaits s) (osc : Osc) (fsel : Byte) :
    exec (.config osc fsel) s = .next (configOp osc fsel s) := exec_of_enabled rfl (enabled_of_host rfl h)

theorem supportedFsel_iff {fsel : Byte} : supportedFsel fsel = true ↔ fsel.toNat ≤ 2 := decide_eq_true_iff

theorem exec_config_of_supported {s : State} (h : ¬ InterruptWaits s) (osc : Osc) {fsel : Byte}
    (hf : fsel.toNat ≤ 2) :
    exec (.config osc fsel) s =
      .next { s with
        plan := planFor s.params.toRawParams osc fsel
        planValid := true
        timer := { s.timer with timCnt := 0#16, timPcnt := 0#8 }
        resp := [respOK] } := by
  rw [exec_config h, configOp_of_supported (supportedFsel_iff.2 hf)]

/-- The plan's registers as numbers: the reload value by quotient and remainder of 256. -/
theorem planFor_eq (p : RawParams) (osc : Osc) (fsel : Byte) :
    planFor p osc fsel =
      { clkOsc := osc
        clkFsel := BitVec.ofNat 2 fsel.toNat
        timPsc := BitVec.ofNat 8 (pscDiv p osc fsel.toNat)
        timArrh := BitVec.ofNat 8 (reloadValue p osc fsel.toNat / 256)
        timArrl := BitVec.ofNat 8 (reloadValue p osc fsel.toNat % 256) } := by
  rw [planFor, ClockPlan.mk.injEq]
  refine ⟨rfl, rfl, rfl, BitVec.eq_of_toNat_eq ?_, BitVec.eq_of_toNat_eq ?_⟩
  · rw [BitVec.extractLsb'_toNat, BitVec.toNat_ofNat, BitVec.toNat_ofNat, Nat.shiftRight_eq_div_pow]
    omega
  · rw [BitVec.extractLsb'_toNat, BitVec.toNat_ofNat, BitVec.toNat_ofNat, Nat.shiftRight_zero]
    omega

/-- Settles O11: the registers of the plan, as numbers. -/
theorem configProgramsThePlanAndRestartsTheTimer : Obligations.ConfigProgramsThePlanAndRestartsTheTimer := by
  intro s osc fsel h hf
  rw [exec_config_of_supported h osc hf, planFor_eq]
  cases osc <;> rfl

/-- Settles O12: CONFIG is enabled, and answers UnsupportedFrequency alone (rule R90). -/
theorem configOfAnUnsupportedFrequencyChangesNothing : Obligations.ConfigOfAnUnsupportedFrequencyChangesNothing := by
  intro s osc fsel h hf
  rw [exec_config h, configOp_of_unsupported (decide_eq_false (Nat.not_le.2 hf))]
  rfl

/-- The period of the reload value is the target's within one counter unit, by the floor in rule R88. -/
theorem reloadValue_period (p : Params) (osc : Osc) {fsel : Nat} (h : fsel ≤ 2) :
    pscDiv p.toRawParams osc fsel * (reloadValue p.toRawParams osc fsel + 1) * targetHz fsel ≤ oscHz p.toRawParams osc ∧
    oscHz p.toRawParams osc <
      pscDiv p.toRawParams osc fsel * (reloadValue p.toRawParams osc fsel + 2) * targetHz fsel := by
  obtain ⟨hdiv, -, hunits, -⟩ := p.pair_bounds osc h
  have hreload : reloadValue p.toRawParams osc fsel + 1 = periodUnits p.toRawParams osc fsel :=
    Nat.sub_add_cancel hunits
  have hunit : 0 < pscDiv p.toRawParams osc fsel * targetHz fsel := Nat.mul_pos hdiv (by simp [targetHz])
  rw [show reloadValue p.toRawParams osc fsel + 2 = periodUnits p.toRawParams osc fsel + 1 by omega, hreload,
    Nat.mul_right_comm _ (periodUnits _ _ _), Nat.mul_right_comm _ (periodUnits _ _ _ + 1)]
  exact ⟨Nat.mul_div_le _ _, Nat.lt_mul_div_succ _ hunit⟩

/-- Settles O13: the plan holds the divisor and the reload value of rule R88, and the floor in it gives the bounds. -/
theorem configuredPeriodIsWithinOneCounterUnit : Obligations.ConfiguredPeriodIsWithinOneCounterUnit := by
  intro s osc fsel h hf
  refine ⟨_, exec_config_of_supported h osc hf, ?_⟩
  obtain ⟨hdiv, hreload⟩ := planFor_values s.params osc (supportedFsel_iff.2 hf)
  rw [← reloadOf_toNat, hdiv, hreload]
  exact ⟨(s.params.pair_bounds osc hf).1, reloadValue_period s.params osc hf⟩

/-! ### One cycle (rule R92) -/

section OneCycle
variable {psc : BitVec 8} {reload : BitVec 16} {t : TimerRegs}

/-- The prescaler wraps in the cycle that makes its phase the divisor. -/
theorem timPcnt_succ_eq_iff (h : t.timPcnt.toNat < psc.toNat) :
    t.timPcnt + 1#8 = psc ↔ t.timPcnt.toNat + 1 = psc.toNat := by
  bv_omega

theorem timerCycle_of_phase (h : t.timPcnt + 1#8 ≠ psc) :
    timerCycle psc reload t = { t with timPcnt := t.timPcnt + 1#8 } := if_neg h

theorem timerCycle_of_count (h : t.timPcnt + 1#8 = psc) (hcnt : t.timCnt ≠ reload) :
    timerCycle psc reload t = { t with timPcnt := 0#8, timCnt := t.timCnt + 1#16 } := by
  rw [timerCycle, if_pos h, if_neg hcnt]

theorem timerCycle_of_overflow (h : t.timPcnt + 1#8 = psc) (hcnt : t.timCnt = reload) :
    timerCycle psc reload t =
      { timCnt := 0#16, timPcnt := 0#8, irqPending := true, tickLost := t.tickLost || t.irqPending } := by
  rw [timerCycle, if_pos h, if_pos hcnt, overflow]

end OneCycle

/-- `OSC 1` is one cycle of the timer. -/
theorem exec_osc_one {s : State} (h : s.planValid = true) :
    exec (.osc 1#16) s = .next { s with timer := timerCycle s.plan.timPsc (reloadOf s.plan) s.timer } := by
  rw [exec_osc (by decide), oscCycles_of_plan h]
  rfl

/-- Settles O14, case by case of a cycle. -/
theorem oneOscillatorCycleAdvancesTheTimer : Obligations.OneOscillatorCycleAdvancesTheTimer := by
  intro s hvalid hpcnt _
  have hwrap_iff := timPcnt_succ_eq_iff hpcnt
  rw [exec_osc_one hvalid, ← reloadOf_toNat]
  exact ⟨fun hphase => by rw [timerCycle_of_phase (mt hwrap_iff.1 hphase)],
    fun hwrap hcnt => by rw [timerCycle_of_count (hwrap_iff.2 hwrap) (mt BitVec.toNat_eq.1 hcnt)],
    fun hwrap hcnt => by rw [timerCycle_of_overflow (hwrap_iff.2 hwrap) (BitVec.toNat_eq.2 hcnt)]⟩

/-! ### Oscillator cycles in the period (rules R92 to R94) -/

section Cycles
variable {psc : BitVec 8} {reload : BitVec 16} {t : TimerRegs}

theorem countersInRange_iff :
    countersInRange psc reload t = true ↔ t.timPcnt.toNat < psc.toNat ∧ t.timCnt.toNat ≤ reload.toNat := by
  simp [countersInRange]

/-- Registers that hold quotient and remainder of a place below the period are at that place. -/
theorem timerPlace_of_divMod {place : Nat} (h : place < psc.toNat * (reload.toNat + 1)) (pending lost : Bool) :
    timerPlace psc
      { timCnt := BitVec.ofNat 16 (place / psc.toNat)
        timPcnt := BitVec.ofNat 8 (place % psc.toNat)
        irqPending := pending
        tickLost := lost } = place := by
  have hpsc : 0 < psc.toNat := Nat.pos_of_mul_pos_right (Nat.zero_lt_of_lt h)
  have hcnt : place / psc.toNat < 2 ^ 16 := (Nat.div_lt_of_lt_mul h).trans_le reload.isLt
  have hpcnt : place % psc.toNat < 2 ^ 8 := (Nat.mod_lt _ hpsc).trans psc.isLt
  rw [timerPlace, BitVec.toNat_ofNat, BitVec.toNat_ofNat, Nat.mod_eq_of_lt hcnt, Nat.mod_eq_of_lt hpcnt,
    Nat.div_add_mod']

/-- Cycles count the place up, modulo the period. -/
theorem timerPlace_timerCycles (n : Nat) (h : countersInRange psc reload t = true) :
    timerPlace psc (timerCycles psc reload n t) = (timerPlace psc t + n) % (psc.toNat * (reload.toNat + 1)) := by
  rw [← timerJump_eq_cycles n h]
  exact timerPlace_of_divMod (Nat.mod_lt _ (Nat.zero_lt_of_lt (timerPlace_lt h))) _ _

/-- A tick is pending after cycles that complete a period, or if one was before them. -/
theorem timerCycles_irqPending_iff (n : Nat) (h : countersInRange psc reload t = true) :
    (timerCycles psc reload n t).irqPending = true ↔
      t.irqPending = true ∨ 1 ≤ (timerPlace psc t + n) / (psc.toNat * (reload.toNat + 1)) := by
  rw [← timerJump_eq_cycles n h]
  simp only [timerJump, timerPlace, Bool.or_eq_true, decide_eq_true_eq]

/-- A tick is lost by a period completed while one is pending, be that from before or from an earlier period. -/
theorem timerCycles_tickLost_iff (n : Nat) (h : countersInRange psc reload t = true) :
    (timerCycles psc reload n t).tickLost = true ↔
      (t.tickLost = true ∨ t.irqPending = true ∧ 1 ≤ (timerPlace psc t + n) / (psc.toNat * (reload.toNat + 1))) ∨
        2 ≤ (timerPlace psc t + n) / (psc.toNat * (reload.toNat + 1)) := by
  rw [← timerJump_eq_cycles n h]
  simp only [timerJump, timerPlace, Bool.or_eq_true, Bool.and_eq_true, decide_eq_true_eq]

end Cycles

/-- Settles O17: the operations are their cycles added up, from place 0 with both flags clear. -/
theorem overflowsAreOnePeriodApart : Obligations.OverflowsAreOnePeriodApart := by
  intro s ns hvalid hpsc hcnt hpcnt hpending hlost hns
  rw [← reloadOf_toNat]
  intro period total
  have hpos : 0 < s.plan.timPsc.toNat := Nat.pos_of_ne_zero (mt (BitVec.eq_of_toNat_eq (y := 0#8)) hpsc)
  have hrange : countersInRange s.plan.timPsc (reloadOf s.plan) s.timer = true := by
    simp [countersInRange_iff, hcnt, hpcnt, hpos]
  have hstart : timerPlace s.plan.timPsc s.timer + total = total := by simp [timerPlace, hcnt, hpcnt]
  have hend : (timerCycles s.plan.timPsc (reloadOf s.plan) total s.timer).timPcnt.toNat < s.plan.timPsc.toNat :=
    (countersInRange_iff.1 (timerCycles_inRange total hrange)).1
  have hplace := timerPlace_timerCycles total hrange
  have hirq := timerCycles_irqPending_iff total hrange
  have htick := timerCycles_tickLost_iff total hrange
  rw [hstart] at hplace hirq htick
  refine ⟨timerCycles s.plan.timPsc (reloadOf s.plan) total s.timer, ?_, hplace, hend, ?_, ?_⟩
  · rw [runInstrs_osc hns, oscCycles_of_plan hvalid]
  · simpa [hpending] using hirq
  · simpa [hpending, hlost] using htick

/-! ### The stopped timer (rule R95) -/

/-- Settles O16: without a plan the timer is at its reset value. -/
theorem withoutAPlanTheTimerIsStopped : Obligations.WithoutAPlanTheTimerIsStopped := by
  intro s hvalid
  refine ⟨fun n hn => by rw [exec_osc hn, oscCycles_of_noPlan hvalid], fun hok => ?_⟩
  obtain ⟨-, htimer⟩ := (timerOk_iff_of_noPlan hvalid).1 hok
  have hpending : s.timer.irqPending = false := congrArg TimerRegs.irqPending htimer
  have hdeliverable : deliverable s = false := by rw [deliverable, hpending, Bool.false_and]
  exact ⟨hpending, exec_of_not_enabled rfl hdeliverable⟩

end Sys2Proof.Proofs
end

section
/-! PROOFS. The dispatcher's rules (41_periodic_interrupt_dispatcher.md). DISPATCH is four handler steps between
interrupt entry and return; so are four steps of the machine from interrupt entry; and its events in their order. -/

namespace Sys2Proof.Proofs

open Sys2Proof.Machine Sys2Proof.Safety

/-! ### The micro-operations and DISPATCH as answers (rules R101 to R103) -/

theorem exec_micro {i : Instr} (hi : i.isStimulus = false) {s : State} (h : s.dstep = DStep.ofInstr i) :
    exec i s = .next (effect i s) := by
  have hwf : i.wf = true := by
    cases i with
    | osc => cases hi
    | _ => rfl
  exact exec_of_enabled hwf ((enabled_micro_iff hi).2 h)

theorem exec_dispatch {s : State} (h : InterruptWaits s) : exec .dispatch s = .next (dispatchOp s) :=
  exec_of_enabled rfl (deliverable_eq_true_iff.2 h)

/-- Settles O24: the answer of IACK is its effect, and an IACK event writes no line. -/
theorem iackClearsThePendingFlag : Obligations.IackClearsThePendingFlag :=
  ⟨fun _ h => exec_micro (i := .iack) rfl h, rfl, rfl⟩

/-! ### The four steps of the handler (rules R101, R103) -/

/-- One step of the handler: `dstep` takes the code of the micro-operation, which is then performed. -/
def handlerStep (i : Instr) (s : State) : State := effect i (setDstep (DStep.ofInstr i) s)

/-- DISPATCH is its four handler steps in the order of their codes, and the return. -/
theorem dispatchOp_eq_handlerSteps (s : State) :
    dispatchOp s =
      leaveHandler (handlerStep .iack (handlerStep .rowadv (handlerStep .bzadv (handlerStep .schtick s)))) := rfl

theorem exec_handlerStep {i : Instr} (hi : i.isStimulus = false) (s : State) :
    exec i (setDstep (DStep.ofInstr i) s) = .next (handlerStep i s) := exec_micro hi rfl

/-- A handler step counts no tick: the return does. -/
theorem handlerStep_nDisp {i : Instr} (hi : i.isStimulus = false) (s : State) :
    (handlerStep i s).nDisp = s.nDisp := by
  have hreset : i ≠ .reset := by rintro rfl; cases hi
  have hticks : ticksIn [i] = 0 := List.count_eq_zero.2 fun hmem => by
    cases List.mem_singleton.1 hmem
    cases hi
  rw [handlerStep, effect_nDisp hreset, hticks, setDstep_nDisp, Nat.add_zero]

/-- Settles O19: each of the four handler steps is enabled, and the last leaves `n_disp` for the return to count. -/
theorem dispatchIsItsFourStepsInOrder : Obligations.DispatchIsItsFourStepsInOrder := by
  intro s h
  refine ⟨_, _, _, _, exec_handlerStep (i := .schtick) rfl s, exec_handlerStep (i := .bzadv) rfl _,
    exec_handlerStep (i := .rowadv) rfl _, exec_handlerStep (i := .iack) rfl _, ?_⟩
  have hcount : (handlerStep .iack (handlerStep .rowadv (handlerStep .bzadv (handlerStep .schtick s)))).nDisp =
      s.nDisp := by
    rw [handlerStep_nDisp rfl, handlerStep_nDisp rfl, handlerStep_nDisp rfl, handlerStep_nDisp rfl]
  rw [exec_dispatch h, dispatchOp_eq_handlerSteps, ← hcount]
  rfl

/-! ### Stepping through the handler (rule R104) -/

/-- The micro-operation that runs at the code of a micro-operation is that one (30_encoding.md rule R70). -/
theorem micro_ofInstr {i : Instr} (hi : i.isStimulus = false) : (DStep.ofInstr i).micro = some i := by
  cases i with
  | schtick | bzadv | rowadv | iack => rfl
  | _ => cases hi

/-- Inside the handler a step of the machine is a handler step, after which `dstep` advances. -/
theorem step_handler {i : Instr} (hi : i.isStimulus = false) (s : State) :
    step (setDstep (DStep.ofInstr i) s) = .next (nextDstep (DStep.ofInstr i) (handlerStep i s)) :=
  step_of_micro (micro_ofInstr hi) (exec_handlerStep hi s)

/-- A run inside the handler begins with a handler step. -/
theorem run_succ_handler {i : Instr} (hi : i.isStimulus = false) {k : Nat} {s t : State}
    (h : core.run k (nextDstep (DStep.ofInstr i) (handlerStep i s)) = .next t) :
    core.run (k + 1) (setDstep (DStep.ofInstr i) s) = .next t :=
  run_succ_next_iff.2 ⟨_, step_handler hi s, h⟩

/-- Settles O20: each step of the machine leaves `dstep` where the next handler step begins, and the last one
returns. -/
theorem steppingTheHandlerIsTheAtomicDispatch : Obligations.SteppingTheHandlerIsTheAtomicDispatch := by
  intro s h
  have hiack : ∀ t, core.run 1 (setDstep .iack t) = .next (leaveHandler (handlerStep .iack t)) :=
    fun _ => run_succ_handler (i := .iack) rfl rfl
  have hrowadv : ∀ t, core.run 2 (setDstep .rowadv t) =
      .next (leaveHandler (handlerStep .iack (handlerStep .rowadv t))) :=
    fun _ => run_succ_handler (i := .rowadv) rfl (hiack _)
  have hbzadv : ∀ t, core.run 3 (setDstep .bzadv t) =
      .next (leaveHandler (handlerStep .iack (handlerStep .rowadv (handlerStep .bzadv t)))) :=
    fun _ => run_succ_handler (i := .bzadv) rfl (hrowadv _)
  rw [exec_dispatch h, dispatchOp_eq_handlerSteps]
  exact run_succ_handler (i := .schtick) rfl (hbzadv _)

/-! ### The events of a DISPATCH (rule R101) -/

/-- A row is three events for each column and four around them (42_row_multiplexer_shift_register_driver.md rule
R114). -/
theorem length_rowEvents (s : State) : (rowEvents s).length = 3 * s.params.sizeX + 4 := by
  have hcolumn : ∀ y c, (columnEvents s y c).length = 3 := fun _ _ => rfl
  simp [rowEvents, List.length_flatMap, hcolumn, Nat.mul_comm]

/-- Settles O22: the events are those of one tick, the middle part the buzzer's and the row's. -/
theorem dispatchEmitsItsEventsInOrder : Obligations.DispatchEmitsItsEventsInOrder := by
  intro s h
  refine ⟨dispatchOp s, (bzNext s.buzzer).2, rowEvents s, exec_dispatch h, ?_,
    (bzNext_events s.buzzer).imp_right fun hbz => ⟨_, hbz⟩, length_rowEvents s, fun e he => ?_⟩
  · rw [dispatchOp_eq, tickEvents]
  · obtain ⟨hsched, hiack⟩ := rowEvents_ne he
    exact ⟨hsched, hiack, rowEvents_isBz he⟩

end Sys2Proof.Proofs
end

section
/-! PROOFS. The display's rules (42_row_multiplexer_shift_register_driver.md). One row: its events, what they leave and
what the receivers see of them; the cursor from row to row; a whole refresh, after which the same row is due again; and
what the picture does not influence. -/

namespace Sys2Proof.Proofs

open Sys2Proof.Machine Sys2Proof.Safety

/-! ### One row (rules R113 to R122, R125, R127) -/

theorem exec_rowadv {s : State} (h : s.dstep = .rowadv) : exec .rowadv s = .next (rowadvOp s) :=
  exec_micro (i := .rowadv) rfl h

/-- Settles O31: the lines are left as the row's events leave them. -/
theorem rowadvShiftsLatchesAndSelectsOneRow : Obligations.RowadvShiftsLatchesAndSelectsOneRow := by
  intro s h
  dsimp only
  rw [exec_rowadv h, rowadvOp_eq, foldl_rowEvents, rowEvents, ← List.append_assoc, ← List.append_assoc]
  rfl

/-- Shifting out columns emits events of the data lines and the clock only. -/
theorem columnEvents_shape {s : State} {y : Nat} {cs : List Nat} {e : Event}
    (h : e ∈ cs.flatMap (columnEvents s y)) : (∃ r g b, e = .sd r g b) ∨ ∃ v, e = .shcp v := by
  simp only [columnEvents, List.mem_flatMap, List.mem_cons, List.not_mem_nil, or_false] at h
  obtain ⟨c, -, rfl | rfl | rfl⟩ := h
  · exact .inl ⟨_, _, _, rfl⟩
  · exact .inr ⟨_, rfl⟩
  · exact .inr ⟨_, rfl⟩

/-- Each column is one rising edge, at which the data lines carry the complements of its bits. -/
theorem pulses_columnEvents (s : State) (y : Nat) (cs : List Nat) (d : Bool × Bool × Bool) :
    pulses d (cs.flatMap (columnEvents s y)) =
      cs.map fun c => (!pixel s 0 y c, !pixel s 1 y c, !pixel s 2 y c) := by
  induction cs generalizing d with
  | nil => rfl
  | cons c cs ih => exact congrArg (List.cons _) (ih _)

/-- The row-select byte with its top bit clear enables no row (rule R115). -/
theorem getLsbD_rowDisable (x : Byte) : (rowDisable x).getLsbD 7 = false := by
  rw [rowDisable, BitVec.getLsbD_and]
  exact Bool.and_false _

/-- Settles O32: the shifted part of the row's events is its columns. -/
theorem receiversSeeTheRowInProtocolOrder : Obligations.ReceiversSeeTheRowInProtocolOrder := by
  intro s t h
  obtain ⟨-, -, rfl⟩ := exec_next_iff.1 h
  refine ⟨rowDisable s.lines.rowSel, (List.range s.params.sizeX).flatMap (columnEvents s s.rowCur.toNat), ?_,
    getLsbD_rowDisable _, fun _ => columnEvents_shape, pulses_columnEvents s _ _⟩
  rw [effect, rowadvOp_eq, rowEvents, List.append_assoc]
  rfl

/-! ### The cursor (rules R123, R124) -/

/-- Only a row, alone or as a step of DISPATCH, and RESET write the cursor. -/
theorem effect_rowCur {i : Instr} (hrow : i ≠ .rowadv) (hdispatch : i ≠ .dispatch) (hreset : i ≠ .reset)
    (s : State) : (effect i s).rowCur = s.rowCur := by
  cases hi : i.isStimulus with
  | true =>
    cases cursorChange_effect hi s with
    | ticked => exact absurd rfl hdispatch
    | cleared => exact absurd rfl hreset
    | kept _ hcur => exact hcur
  | false =>
    cases i with
    | schtick | iack => rfl
    | bzadv => rw [effect, bzadvOp_eq]
    | rowadv => exact absurd rfl hrow
    | _ => cases hi

/-- Settles O33: a row advances the cursor modulo the rows. -/
theorem cursorAdvancesByOneModuloTheRows : Obligations.CursorAdvancesByOneModuloTheRows := by
  refine ⟨fun s hstep hcur => ⟨_, exec_rowadv hstep, ?_⟩, fun i s t h hrow hdispatch hreset => ?_⟩
  · rw [rowadvOp_eq]
    exact nextRow_toNat s.params hcur
  · obtain ⟨-, -, rfl⟩ := exec_next_iff.1 h
    exact effect_rowCur hrow hdispatch hreset s

/-- Settles O55: every change of the cursor keeps the cursor law. -/
theorem everyStepKeepsTheCursorLaw : Obligations.EveryStepKeepsTheCursorLaw := by
  intro s t hb hs h
  exact step_keeps (fun _ _ hs => hs)
    (fun i s hi hs => (cursorChange_effect hi s).displayOk (effect_params i s) hs) hb hs h

/-! ### Lists of operations -/

theorem runInstrs_cons_next_iff {i : Instr} {is : List Instr} {s t : State} :
    runInstrs (i :: is) s = .next t ↔ ∃ u, exec i s = .next u ∧ runInstrs is u = .next t := andThen_next_iff

/-- A property that each operation of a list keeps is kept by the list. -/
theorem runInstrs_keeps {P : State → Prop} {is : List Instr}
    (hexec : ∀ i ∈ is, ∀ s t, P s → exec i s = .next t → P t) {s t : State} (hs : P s)
    (h : runInstrs is s = .next t) : P t := by
  induction is generalizing s with
  | nil =>
    cases h
    exact hs
  | cons i is ih =>
    obtain ⟨u, hu, hrun⟩ := runInstrs_cons_next_iff.1 h
    obtain ⟨hi, his⟩ := List.forall_mem_cons.1 hexec
    exact ih his (hi s u hs hu) hrun

/-- Without RESET, `n_disp` counts the ticks of a list of operations (10_state.md rule R35). -/
theorem runInstrs_nDisp {is : List Instr} (his : ∀ i ∈ is, i ≠ .reset) {s t : State}
    (h : runInstrs is s = .next t) : t.nDisp = s.nDisp + ticksIn is := by
  induction is generalizing s with
  | nil =>
    cases h
    rfl
  | cons i is ih =>
    obtain ⟨u, hu, hrun⟩ := runInstrs_cons_next_iff.1 h
    obtain ⟨hi, his⟩ := List.forall_mem_cons.1 his
    obtain ⟨-, -, rfl⟩ := exec_next_iff.1 hu
    have hsplit : ticksIn (i :: is) = ticksIn [i] + ticksIn is := List.count_append (l₁ := [i])
    rw [ih his hrun, effect_nDisp hi, hsplit, Nat.add_assoc]

/-- Between operations no micro-operation is performed by itself (30_encoding.md rule R70). -/
theorem isStimulus_of_exec {i : Instr} {s t : State} (hb : Between s) (h : exec i s = .next t) :
    i.isStimulus = true := by
  obtain ⟨-, henabled, -⟩ := exec_next_iff.1 h
  by_contra hi
  rw [enabled_micro_iff (Bool.eq_false_iff.2 hi), hb] at henabled
  cases i with
  | schtick | bzadv | rowadv | iack => cases henabled
  | _ => exact hi rfl

/-! ### A whole refresh (rule R126) -/

theorem effect_fb_of_keepsPicture {i : Instr} (hi : keepsPicture i = true) (s : State) :
    (effect i s).fb = s.fb := by
  cases storeChange_effect i s with
  | written => cases hi
  | cleared => cases hi
  | kept _ hfb => exact hfb

theorem ne_reset_of_keepsPicture {i : Instr} (hi : keepsPicture i = true) : i ≠ .reset := by
  rintro rfl
  cases hi

/-- What operations without FBWR and RESET keep, from the state `s₀` on: the display as it is between operations, and
the picture. -/
structure ShowsPictureOf (s₀ s : State) : Prop where
  between : Between s
  display : DisplayOk s
  params : s.params = s₀.params
  fb : s.fb = s₀.fb

theorem ShowsPictureOf.exec {s₀ s t : State} {i : Instr} (hs : ShowsPictureOf s₀ s) (hi : keepsPicture i = true)
    (h : exec i s = .next t) : ShowsPictureOf s₀ t := by
  have hstim := isStimulus_of_exec hs.between h
  obtain ⟨-, -, rfl⟩ := exec_next_iff.1 h
  exact {
    between := between_effect hstim hs.between
    display := (cursorChange_effect hstim s).displayOk (effect_params i s) hs.display
    params := (effect_params i s).trans hs.params
    fb := (effect_fb_of_keepsPicture hi s).trans hs.fb }

/-- Cursor and row-select byte repeat after as many ticks as there are rows: both depend on `n_disp` modulo the rows,
once there has been a tick. -/
theorem rowCur_rowSel_refresh {s t : State} (hs : DisplayOk s) (ht : DisplayOk t) (hparams : t.params = s.params)
    (hticked : 1 ≤ s.nDisp) (hcount : t.nDisp = s.nDisp + s.params.maxY) :
    t.rowCur = s.rowCur ∧ t.lines.rowSel = s.lines.rowSel := by
  obtain ⟨hcur, hsel, -⟩ := hs
  obtain ⟨hcur', hsel', -⟩ := ht
  have hlast : s.nDisp + s.params.maxY - 1 = s.nDisp - 1 + s.params.maxY := by omega
  rw [hparams, hcount, Nat.add_mod_right] at hcur'
  rw [hparams, hcount, hlast, Nat.add_mod_right, if_neg (by omega)] at hsel'
  rw [if_neg (by omega)] at hsel
  exact ⟨BitVec.eq_of_toNat_eq (hcur'.trans hcur.symm), hsel'.trans hsel.symm⟩

/-- Without a REQBUZZ the buzzer stays Idle (43_buzzer_sequencer_fsm.md rule R132). -/
theorem exec_idle {i : Instr} {s t : State} (hi : ∀ freq rpt, i ≠ .reqbuzz freq rpt) (hs : s.buzzer.phase = .idle)
    (h : exec i s = .next t) : t.buzzer.phase = .idle := by
  obtain ⟨-, -, rfl⟩ := exec_next_iff.1 h
  cases buzzerChange_effect i s with
  | requested freq rpt => exact absurd rfl (hi freq rpt)
  | ticked _ _ hb => rw [hb, bzNext, hs]; exact hs
  | cleared hb => rw [hb]; rfl
  | kept _ hb => rw [hb]; exact hs

theorem dispatchEvents_eq (s : State) : dispatchEvents s = tickEvents s := by
  rw [dispatchEvents, dispatchOp_eq]
  exact List.drop_left

/-- In Idle a tick's events are the call of the scheduler, the row and the acknowledge. -/
theorem tickEvents_of_idle {s : State} (h : s.buzzer.phase = .idle) :
    tickEvents s = .sched :: (rowEvents s ++ [.iack]) := by
  rw [tickEvents, bzNext, h]
  rfl

/-- Settles O34: a row's events depend on the picture, the cursor and the row-select byte, and all three are back
where they were. -/
theorem theSameRowGoesOutOneRefreshLater : Obligations.TheSameRowGoesOutOneRefreshLater := by
  intro s t is hb hs hticked his hrun hticks
  have ht : ShowsPictureOf s t :=
    runInstrs_keeps (fun i hi _ _ hu => hu.exec (his i hi)) ⟨hb, hs, rfl, rfl⟩ hrun
  have hcount := runInstrs_nDisp (fun i hi => ne_reset_of_keepsPicture (his i hi)) hrun
  rw [hticks] at hcount
  obtain ⟨hcur, hsel⟩ := rowCur_rowSel_refresh hs ht.display ht.params hticked hcount
  have hrow : rowEvents t = rowEvents s := rowEvents_congr ht.params ht.fb hcur hsel
  refine ⟨hrow, fun hidle hquiet => ?_⟩
  have hidle' : t.buzzer.phase = .idle :=
    runInstrs_keeps (P := fun u => u.buzzer.phase = .idle) (fun i hi _ _ => exec_idle (hquiet i hi)) hidle hrun
  rw [dispatchEvents_eq, dispatchEvents_eq, tickEvents_of_idle hidle, tickEvents_of_idle hidle', hrow]

/-! ### What the picture does not influence (rules R114, R131) -/

/-- The lines with the data lines blanked. -/
def blankData (l : OutputLines) : OutputLines := { l with sdR := false, sdG := false, sdB := false }

/-- The state with the picture and all that shows it blanked. -/
def blankPicture (s : State) : State :=
  { s with fb := [], lines := blankData s.lines, outTrace := [], resp := [] }

theorem sameButPicture_iff {s t : State} : SameButPicture s t ↔ blankPicture s = blankPicture t := Iff.rfl

theorem blankData_apply (l : OutputLines) (e : Event) :
    blankData ((blankData l).apply e) = blankData (l.apply e) := by
  cases e <;> rfl

/-- The other lines take their levels from the events whatever the data lines were. -/
theorem blankData_foldl_apply (es : List Event) (l : OutputLines) :
    blankData (es.foldl OutputLines.apply (blankData l)) = blankData (es.foldl OutputLines.apply l) := by
  induction es generalizing l with
  | nil => rfl
  | cons e es ih => rw [List.foldl_cons, List.foldl_cons, ← ih, blankData_apply, ih]

/-- An operation on the state through which the picture reaches nothing but what shows it. -/
def PictureBlind (f : State → State) : Prop := ∀ s t, SameButPicture s t → SameButPicture (f s) (f t)

/-- It suffices that blanking the picture beforehand makes no difference. -/
theorem PictureBlind.of_blank {f : State → State}
    (h : ∀ s, blankPicture (f (blankPicture s)) = blankPicture (f s)) : PictureBlind f := by
  intro s t hst
  rw [sameButPicture_iff] at hst ⊢
  rw [← h s, hst, h t]

theorem PictureBlind.comp {f g : State → State} (hf : PictureBlind f) (hg : PictureBlind g) :
    PictureBlind (f ∘ g) :=
  fun s t h => hf _ _ (hg s t h)

/-- An operation that changes nothing but the picture and what shows it. -/
theorem PictureBlind.of_unchanged {f : State → State} (h : ∀ s, blankPicture (f s) = blankPicture s) :
    PictureBlind f := .of_blank fun s => by rw [h, h]; rfl

theorem pictureBlind_configOp (osc : Osc) (fsel : Byte) : PictureBlind (configOp osc fsel) := .of_blank fun s => by
  cases hf : supportedFsel fsel with
  | true => rw [configOp_of_supported hf, configOp_of_supported hf]; rfl
  | false => rw [configOp_of_unsupported hf, configOp_of_unsupported hf]; rfl

theorem pictureBlind_oscOp (n : BitVec 16) : PictureBlind (oscOp n) := .of_blank fun s => by
  cases hv : s.planValid with
  | true => rw [oscOp_of_plan hv, oscOp_of_plan (s := blankPicture s) hv]; rfl
  | false => rw [oscOp_of_noPlan hv, oscOp_of_noPlan (s := blankPicture s) hv]; rfl

/-- The sequencer does not read the display (43_buzzer_sequencer_fsm.md rule R131). -/
theorem pictureBlind_bzadvOp : PictureBlind bzadvOp := .of_blank fun s => by
  rw [bzadvOp_eq, bzadvOp_eq]
  simp only [blankPicture, blankData_foldl_apply]

/-- Of a row, only the levels of the data lines depend on the picture (rule R114). -/
theorem pictureBlind_rowadvOp : PictureBlind rowadvOp := .of_blank fun s => by
  rw [rowadvOp_eq, rowadvOp_eq, foldl_rowEvents, foldl_rowEvents]
  rfl

theorem pictureBlind_setDstep (d : DStep) : PictureBlind (setDstep d) := .of_blank fun _ => rfl

/-- DISPATCH is its handler steps, so it is blind to the picture since they are. -/
theorem pictureBlind_dispatchOp : PictureBlind dispatchOp := by
  have hschtick : PictureBlind schtickOp := .of_blank fun _ => rfl
  have hiack : PictureBlind iackOp := .of_blank fun _ => rfl
  have hleave : PictureBlind leaveHandler := .of_blank fun _ => rfl
  exact hleave.comp <| (hiack.comp (pictureBlind_setDstep .iack)).comp <|
    (pictureBlind_rowadvOp.comp (pictureBlind_setDstep .rowadv)).comp <|
    (pictureBlind_bzadvOp.comp (pictureBlind_setDstep .bzadv)).comp <|
    hschtick.comp (pictureBlind_setDstep .schtick)

theorem pictureBlind_effect (i : Instr) : PictureBlind (effect i) := by
  cases i with
  | config osc fsel => exact pictureBlind_configOp osc fsel
  | osc n => exact pictureBlind_oscOp n
  | dispatch => exact pictureBlind_dispatchOp
  | bzadv => exact pictureBlind_bzadvOp
  | rowadv => exact pictureBlind_rowadvOp
  | fbwr | fbrd | rdsr =>
    refine .of_unchanged fun s => ?_
    simp only [effect, fbwrOp, fbrdOp, rdsrOp]
    split <;> rfl
  | reqbuzz | imask | iunmask | reset | schtick | iack => exact .of_blank fun _ => rfl

theorem enabled_blankPicture (i : Instr) (s : State) : enabled i (blankPicture s) = enabled i s := rfl

/-- Settles O52: which operation is enabled does not depend on the picture, and each is blind to it. -/
theorem thePictureInfluencesOnlyTheDataLines : Obligations.ThePictureInfluencesOnlyTheDataLines := by
  intro i s s' h
  have hsame : enabled i s' = enabled i s := by
    rw [← enabled_blankPicture i s, sameButPicture_iff.1 h, enabled_blankPicture]
  cases hwf : i.wf with
  | false =>
    cases i with
    | osc n =>
      obtain rfl : n = 0#16 := by simpa [Instr.wf] using hwf
      exact .inr ⟨_, exec_oscZero s, exec_oscZero s'⟩
    | _ => cases hwf
  | true =>
    cases henabled : enabled i s with
    | true =>
      exact .inl ⟨_, _, exec_of_enabled hwf henabled, exec_of_enabled hwf (hsame.trans henabled),
        pictureBlind_effect i s s' h⟩
    | false =>
      exact .inr ⟨_, exec_of_not_enabled hwf henabled, exec_of_not_enabled hwf (hsame.trans henabled)⟩

end Sys2Proof.Proofs
end

section
/-! PROOFS. The buzzer's rules (43_buzzer_sequencer_fsm.md). One tick of the sequencer, phase by phase; the timeline of
a pattern, stage by stage of its repeat unit; and that every operation but REQBUZZ and RESET keeps to the timeline. -/

namespace Sys2Proof.Proofs

open Sys2Proof.Machine Sys2Proof.Safety

/-! ### REQBUZZ and BZADV as answers (rules R129 to R132) -/

/-- Settles O25: REQBUZZ is enabled in every phase, and its effect gives every buzzer register a value. -/
theorem reqbuzzRestartsThePatternFromEveryPhase : Obligations.ReqbuzzRestartsThePatternFromEveryPhase :=
  fun _ freq rpt h => exec_of_enabled (i := .reqbuzz freq rpt) rfl (enabled_of_host rfl h)

theorem exec_bzadv {s : State} (h : s.dstep = .bzadv) : exec .bzadv s = .next (bzadvOp s) :=
  exec_micro (i := .bzadv) rfl h

theorem bzNext_idle {b : BuzzerState} (h : b.phase = .idle) : bzNext b = (b, []) := by
  rw [bzNext, h]

/-- Settles O26: a tick in Idle keeps the registers, and of the other operations only REQBUZZ and RESET write them. -/
theorem idleLastsUntilReqbuzz : Obligations.IdleLastsUntilReqbuzz := by
  refine ⟨fun s hd hidle => ?_, fun i s t h hidle hi => ⟨exec_idle hi hidle h, fun hreset => ?_⟩⟩
  · rw [exec_bzadv hd, bzadvOp, hidle]
  · obtain ⟨-, -, rfl⟩ := exec_next_iff.1 h
    cases buzzerChange_effect i s with
    | requested freq rpt => exact absurd rfl (hi freq rpt)
    | ticked _ _ hb => rw [hb, bzNext_idle hidle]
    | cleared => exact absurd rfl hreset
    | kept _ hb => exact hb

/-! ### One tick of the sequencer (rules R131 to R136) -/

/-- How many ticks a phase lasts (rule R131); Idle counts none. -/
def phaseTicks : BzPhase → Nat
  | .idle => 0
  | .sounding => tOn
  | .shortGap => tShort
  | .burstGap => tBurst

theorem phaseTicks_le (ph : BzPhase) : phaseTicks ph ≤ 2000 := by
  cases ph <;> decide

/-- A tick that ends no phase. -/
theorem bzNext_within {b : BuzzerState} (h : b.elapsed.toNat + 1 < phaseTicks b.phase) :
    bzNext b = ({ b with elapsed := b.elapsed + 1#16 }, []) := by
  have hsucc : (b.elapsed + 1#16).toNat = b.elapsed.toNat + 1 := by
    have hle := phaseTicks_le b.phase
    rw [BitVec.toNat_add, BitVec.toNat_ofNat]
    omega
  rw [← hsucc] at h
  unfold bzNext
  cases hphase : b.phase with
  | idle =>
    rw [hphase] at h
    exact absurd h (Nat.not_lt_zero _)
  | sounding | shortGap | burstGap =>
    rw [hphase] at h
    exact if_neg (Nat.not_le_of_lt h)

/-- The end of a phase: the registers on entry to the phase `ph` with the given `bz_dbl` and `bz_rpt_cnt`, and the
event of its entry action (rule R136). -/
def phaseEntry (ph : BzPhase) (dbl : Bool) (count : Byte) (b : BuzzerState) : BuzzerState × List Event :=
  ({ b with phase := ph, elapsed := 0#16, dbl := dbl, rptCnt := count }, [.bz (ph == .sounding) b.freq])

section PhaseEnds
variable {b : BuzzerState}

theorem bzNext_firstPulse_ends (hphase : b.phase = .sounding) (helapsed : b.elapsed = 199#16) (hdbl : b.dbl = false) :
    bzNext b = phaseEntry .shortGap true b.rptCnt b := by
  simp [bzNext, phaseEntry, hphase, helapsed, hdbl, tOn]

theorem bzNext_secondPulse_ends (hphase : b.phase = .sounding) (helapsed : b.elapsed = 199#16) (hdbl : b.dbl = true) :
    bzNext b = phaseEntry .burstGap false b.rptCnt b := by
  simp [bzNext, phaseEntry, hphase, helapsed, hdbl, tOn]

theorem bzNext_shortGap_ends (hphase : b.phase = .shortGap) (helapsed : b.elapsed = 199#16) :
    bzNext b = phaseEntry .sounding b.dbl b.rptCnt b := by
  simp [bzNext, phaseEntry, hphase, helapsed, tShort]

theorem toNat_count_succ {count : Byte} (h : count.toNat < 255) : (count + 1#8).toNat = count.toNat + 1 := by
  rw [BitVec.toNat_add, BitVec.toNat_ofNat]
  omega

/-- The last unit of a pattern ends (rule R135). -/
theorem bzNext_pattern_ends (hphase : b.phase = .burstGap) (helapsed : b.elapsed = 1999#16)
    (hcount : b.rptCnt.toNat < 255) (htarget : b.rptTgt.toNat ≤ b.rptCnt.toNat + 1) :
    bzNext b = phaseEntry .idle b.dbl (b.rptCnt + 1#8) b := by
  rw [← toNat_count_succ hcount] at htarget
  simp only [bzNext, phaseEntry, hphase, helapsed, if_pos htarget]
  rfl

/-- A unit ends and another one follows (rule R135). -/
theorem bzNext_unit_ends (hphase : b.phase = .burstGap) (helapsed : b.elapsed = 1999#16)
    (hcount : b.rptCnt.toNat < 255) (htarget : b.rptCnt.toNat + 1 < b.rptTgt.toNat) :
    bzNext b = phaseEntry .sounding b.dbl (b.rptCnt + 1#8) b := by
  rw [← toNat_count_succ hcount] at htarget
  simp only [bzNext, phaseEntry, hphase, helapsed, if_neg (Nat.not_le_of_lt htarget)]
  rfl

end PhaseEnds

theorem exec_bzadv_of_bzNext {s : State} {b : BuzzerState} {es : List Event} (hd : s.dstep = .bzadv)
    (h : bzNext s.buzzer = (b, es)) :
    exec .bzadv s =
      .next { s with buzzer := b, lines := es.foldl OutputLines.apply s.lines, outTrace := s.outTrace ++ es } := by
  rw [exec_bzadv hd, bzadvOp_eq, h]

/-- Settles O27: in each of the three phases the count stays below the phase's ticks. -/
theorem bzadvCountsTicksWithinAPhase : Obligations.BzadvCountsTicksWithinAPhase := by
  intro s hd h
  have hwithin : s.buzzer.elapsed.toNat + 1 < phaseTicks s.buzzer.phase := by
    rcases h with ⟨hphase, h⟩ | ⟨hphase, h⟩ | ⟨hphase, h⟩ <;> rw [hphase] <;> exact h
  rw [exec_bzadv_of_bzNext hd (bzNext_within hwithin), List.append_nil]
  rfl

/-- Settles O28, phase end by phase end. -/
theorem bzadvEndsAPhaseByTheTable : Obligations.BzadvEndsAPhaseByTheTable := by
  intro s hd enters
  have henters {ph dbl cnt} (h : bzNext s.buzzer = phaseEntry ph dbl cnt s.buzzer) : enters ph dbl cnt :=
    exec_bzadv_of_bzNext hd h
  exact ⟨fun hphase helapsed hdbl => henters (bzNext_firstPulse_ends hphase helapsed hdbl),
    fun hphase helapsed hdbl => henters (bzNext_secondPulse_ends hphase helapsed hdbl),
    fun hphase helapsed => henters (bzNext_shortGap_ends hphase helapsed),
    fun hphase helapsed hcount =>
      ⟨fun htarget => henters (bzNext_pattern_ends hphase helapsed hcount htarget),
        fun htarget => henters (bzNext_unit_ends hphase helapsed hcount htarget)⟩⟩

/-! ### The timeline, stage by stage (rule R137) -/

/-- The four stages of a repeat unit. -/
inductive Stage where
  | firstPulse
  | shortGap
  | secondPulse
  | burstGap

/-- `bz_phase` during a stage. -/
def Stage.phase : Stage → BzPhase
  | .firstPulse => .sounding
  | .shortGap => .shortGap
  | .secondPulse => .sounding
  | .burstGap => .burstGap

/-- `bz_dbl` during a stage. -/
def Stage.dbl : Stage → Bool
  | .firstPulse => false
  | .shortGap => true
  | .secondPulse => true
  | .burstGap => false

/-- The ticks of the unit before a stage. -/
def Stage.start : Stage → Nat
  | .firstPulse => 0
  | .shortGap => 200
  | .secondPulse => 400
  | .burstGap => 600

/-- Every tick of a unit falls in a stage. -/
theorem exists_stage {u : Nat} (h : u < 2600) :
    ∃ (st : Stage) (e : Nat), u = st.start + e ∧ e < phaseTicks st.phase := by
  by_cases h₁ : u < 200
  · exact ⟨.firstPulse, u, (Nat.zero_add u).symm, h₁⟩
  by_cases h₂ : u < 400
  · exact ⟨.shortGap, u - 200, (by omega : u = 200 + (u - 200)), (by omega : u - 200 < 200)⟩
  by_cases h₃ : u < 600
  · exact ⟨.secondPulse, u - 400, (by omega : u = 400 + (u - 400)), (by omega : u - 400 < 200)⟩
  · exact ⟨.burstGap, u - 600, (by omega : u = 600 + (u - 600)), (by omega : u - 600 < 2000)⟩

theorem Stage.place_lt (st : Stage) {e : Nat} (h : e < phaseTicks st.phase) : st.start + e < 2600 := by
  cases st <;> simp only [Stage.start, Stage.phase, phaseTicks, tOn, tShort, tBurst] at h ⊢ <;> omega

theorem Stage.phaseTicks_pos (st : Stage) : 0 < phaseTicks st.phase := by
  cases st <;> decide

theorem unitsOf_le (n : Byte) : unitsOf n.toNat ≤ 255 := by
  have hn := n.isLt
  rw [unitsOf]
  omega

section Timeline
variable {freq n : Byte} {t j e : Nat}

/-- The registers at the end of a pattern. -/
theorem timeline_of_ended (h : 2600 * unitsOf n.toNat ≤ t) :
    timeline freq n t =
      { phase := .idle, elapsed := 0#16, rptCnt := BitVec.ofNat 8 (unitsOf n.toNat), rptTgt := n, dbl := false,
        freq := freq } := if_pos h

/-- The registers `e` ticks after the start of a stage of the unit `j`. -/
def stageRegs (freq n : Byte) (j : Nat) (st : Stage) (e : Nat) : BuzzerState :=
  { phase := st.phase, elapsed := BitVec.ofNat 16 e, rptCnt := BitVec.ofNat 8 j, rptTgt := n, dbl := st.dbl,
    freq := freq }

theorem timeline_of_stage (st : Stage) (hj : j < unitsOf n.toNat) (he : e < phaseTicks st.phase)
    (ht : t = 2600 * j + (st.start + e)) : timeline freq n t = stageRegs freq n j st e := by
  have hunit := st.place_lt he
  have hdiv : t / 2600 = j := by omega
  have hmod : t % 2600 = st.start + e := by omega
  have hmore : ¬ 2600 * unitsOf n.toNat ≤ t := by omega
  simp only [timeline, stageRegs, hdiv, if_neg hmore]
  cases st with
  | firstPulse =>
    obtain ⟨hu, hlt⟩ : t % 2600 = 0 + e ∧ e < 200 := ⟨hmod, he⟩
    rw [if_pos (by omega), hu, Nat.zero_add]
    rfl
  | shortGap =>
    obtain ⟨hu, hlt⟩ : t % 2600 = 200 + e ∧ e < 200 := ⟨hmod, he⟩
    rw [if_neg (by omega), if_pos (by omega), hu, Nat.add_sub_cancel_left]
    rfl
  | secondPulse =>
    obtain ⟨hu, hlt⟩ : t % 2600 = 400 + e ∧ e < 200 := ⟨hmod, he⟩
    rw [if_neg (by omega), if_neg (by omega), if_pos (by omega), hu, Nat.add_sub_cancel_left]
    rfl
  | burstGap =>
    obtain ⟨hu, hlt⟩ : t % 2600 = 600 + e ∧ e < 2000 := ⟨hmod, he⟩
    rw [if_neg (by omega), if_neg (by omega), if_neg (by omega), hu, Nat.add_sub_cancel_left]
    rfl

theorem bzEventsAt_of_ended (h : 2600 * unitsOf n.toNat < t) : bzEventsAt freq n t = [] := if_pos h

/-- The event of the tick `u` of a unit, up to the end of the pattern. -/
theorem bzEventsAt_of_place {u : Nat} (hu : u < 2600) (ht : t = 2600 * j + u) (hend : t ≤ 2600 * unitsOf n.toNat) :
    bzEventsAt freq n t =
      if u = 200 ∨ u = 600 then [.bz false freq]
      else if u = 400 then [.bz true freq]
      else if u = 0 then [.bz (decide (t < 2600 * unitsOf n.toNat)) freq]
      else [] := by
  have hmod : t % 2600 = u := by omega
  simp only [bzEventsAt, hmod, if_neg (Nat.not_lt_of_le hend)]

/-- The tick on which a later stage of a unit begins emits its entry action (rule R136). -/
theorem bzEventsAt_of_start (st : Stage) (hj : j < unitsOf n.toNat) (hlater : 0 < st.start)
    (ht : t = 2600 * j + st.start) : bzEventsAt freq n t = [.bz (st.phase == .sounding) freq] := by
  have hunit := st.place_lt st.phaseTicks_pos
  rw [bzEventsAt_of_place hunit ht (by omega)]
  cases st with
  | firstPulse => exact absurd hlater (Nat.lt_irrefl 0)
  | shortGap | secondPulse | burstGap => rfl

/-- The ticks inside a stage emit nothing. -/
theorem bzEventsAt_of_within (st : Stage) (hj : j < unitsOf n.toNat) (he : e + 1 < phaseTicks st.phase)
    (ht : t = 2600 * j + (st.start + (e + 1))) : bzEventsAt freq n t = [] := by
  have hunit := st.place_lt he
  have hinside : ¬ (st.start + (e + 1) = 200 ∨ st.start + (e + 1) = 600) ∧ st.start + (e + 1) ≠ 400 ∧
      st.start + (e + 1) ≠ 0 := by
    cases st <;> simp only [Stage.start, Stage.phase, phaseTicks, tOn, tShort, tBurst] at he ⊢ <;> omega
  obtain ⟨hoff, hon, hstart⟩ := hinside
  rw [bzEventsAt_of_place hunit ht (by omega), if_neg hoff, if_neg hon, if_neg hstart]

/-! ### One tick follows the timeline (rule R137) -/

/-- One tick takes the registers from their values after `t` ticks to those after `t + 1`, and emits the event of the
tick `t + 1`. -/
def TickFollows (freq n : Byte) (t : Nat) : Prop :=
  bzNext (timeline freq n t) = (timeline freq n (t + 1), bzEventsAt freq n (t + 1))

theorem tickFollows_of_ended (h : 2600 * unitsOf n.toNat ≤ t) : TickFollows freq n t := by
  rw [TickFollows, timeline_of_ended h, timeline_of_ended (h.trans (Nat.le_succ t)),
    bzEventsAt_of_ended (Nat.lt_succ_of_le h)]
  rfl

theorem tickFollows_of_within (st : Stage) (hj : j < unitsOf n.toNat) (he : e + 1 < phaseTicks st.phase)
    (ht : t = 2600 * j + (st.start + e)) : TickFollows freq n t := by
  have hnext : t + 1 = 2600 * j + (st.start + (e + 1)) := by omega
  have hwithin : (BitVec.ofNat 16 e).toNat + 1 < phaseTicks st.phase := by
    rwa [BitVec.toNat_ofNat, Nat.mod_eq_of_lt (by have := phaseTicks_le st.phase; omega)]
  rw [TickFollows, timeline_of_stage st hj (Nat.lt_of_succ_lt he) ht, bzNext_within hwithin,
    timeline_of_stage st hj he hnext, bzEventsAt_of_within st hj he hnext]
  simp only [stageRegs, BitVec.ofNat_add]

/-- The last tick of a unit, on which the pattern ends or the next unit begins (rule R135). -/
theorem tickFollows_of_unitEnd (hj : j < unitsOf n.toNat) (ht : t = 2600 * j + 2599) : TickFollows freq n t := by
  have hunits := unitsOf_le n
  have hcount : (BitVec.ofNat 8 j).toNat = j := by
    rw [BitVec.toNat_ofNat, Nat.mod_eq_of_lt (by omega)]
  have hmax : unitsOf n.toNat = max n.toNat 1 := rfl
  rw [TickFollows, timeline_of_stage (e := 1999) .burstGap hj (by decide) ht,
    bzEventsAt_of_place (j := j + 1) (u := 0) (by decide) (by omega) (by omega)]
  by_cases hmore : j + 1 < unitsOf n.toNat
  · have hevent : t + 1 < 2600 * unitsOf n.toNat := by omega
    have htarget : (BitVec.ofNat 8 j).toNat + 1 < n.toNat := by omega
    rw [bzNext_unit_ends rfl rfl (by rw [stageRegs, hcount]; omega) htarget,
      timeline_of_stage (j := j + 1) (e := 0) .firstPulse hmore (by decide) (by simp only [Stage.start]; omega),
      decide_eq_true hevent]
    simp only [phaseEntry, stageRegs, BitVec.ofNat_add]
    rfl
  · have hlast : unitsOf n.toNat = j + 1 := by omega
    have hevent : ¬ t + 1 < 2600 * unitsOf n.toNat := by omega
    have htarget : n.toNat ≤ (BitVec.ofNat 8 j).toNat + 1 := by omega
    rw [bzNext_pattern_ends rfl rfl (by rw [stageRegs, hcount]; omega) htarget,
      timeline_of_ended (by omega), decide_eq_false hevent, hlast]
    simp only [phaseEntry, stageRegs, BitVec.ofNat_add]
    rfl

/-- The last tick of a stage that another stage of the unit follows: BZADV enters the next stage at its start. -/
theorem tickFollows_of_nextStage {st next : Stage} (hj : j < unitsOf n.toNat) (he : e < phaseTicks st.phase)
    (ht : t = 2600 * j + (st.start + e)) (hnext : next.start = st.start + (e + 1))
    (hentry : bzNext (stageRegs freq n j st e) =
      phaseEntry next.phase next.dbl (BitVec.ofNat 8 j) (stageRegs freq n j st e)) : TickFollows freq n t := by
  have hplace : t + 1 = 2600 * j + next.start := by omega
  rw [TickFollows, timeline_of_stage st hj he ht, hentry, timeline_of_stage next hj next.phaseTicks_pos hplace,
    bzEventsAt_of_start next hj (by omega) hplace]
  rfl

theorem tickFollows_of_stageEnd (st : Stage) (hj : j < unitsOf n.toNat) (he : e + 1 = phaseTicks st.phase)
    (ht : t = 2600 * j + (st.start + e)) : TickFollows freq n t := by
  have hlt : e < phaseTicks st.phase := Nat.lt_of_succ_le he.le
  cases st with
  | firstPulse =>
    obtain rfl : e = 199 := Nat.succ.inj he
    exact tickFollows_of_nextStage (next := .shortGap) hj hlt ht rfl (bzNext_firstPulse_ends rfl rfl rfl)
  | shortGap =>
    obtain rfl : e = 199 := Nat.succ.inj he
    exact tickFollows_of_nextStage (next := .secondPulse) hj hlt ht rfl (bzNext_shortGap_ends rfl rfl)
  | secondPulse =>
    obtain rfl : e = 199 := Nat.succ.inj he
    exact tickFollows_of_nextStage (next := .burstGap) hj hlt ht rfl (bzNext_secondPulse_ends rfl rfl rfl)
  | burstGap =>
    obtain rfl : e = 1999 := Nat.succ.inj he
    exact tickFollows_of_unitEnd hj ht

end Timeline

/-- Every tick follows the timeline: after the end of the pattern, at the end of a stage, or inside one. -/
theorem tickFollows (freq n : Byte) (t : Nat) : TickFollows freq n t := by
  by_cases hended : 2600 * unitsOf n.toNat ≤ t
  · exact tickFollows_of_ended hended
  · obtain ⟨st, e, hplace, he⟩ := exists_stage (u := t % 2600) (Nat.mod_lt _ (by decide))
    have ht : t = 2600 * (t / 2600) + (st.start + e) := by rw [← hplace, Nat.div_add_mod]
    have hj : t / 2600 < unitsOf n.toNat := by omega
    rcases Nat.lt_or_eq_of_le (Nat.succ_le_of_lt he) with hinside | hend
    · exact tickFollows_of_within st hj hinside ht
    · exact tickFollows_of_stageEnd st hj hend ht

/-! ### Operations between REQBUZZ and the next (rule R137) -/

theorem ticksIn_cons (i : Instr) (is : List Instr) : ticksIn (i :: is) = ticksIn [i] + ticksIn is :=
  List.count_append (l₁ := [i])

theorem timelineEvents_succ (freq n : Byte) (t : Nat) :
    timelineEvents freq n (t + 1) = timelineEvents freq n t ++ bzEventsAt freq n (t + 1) := by
  simp [timelineEvents, List.range_succ]

/-- Of a tick's events those of the buzzer's step are the `BZ` events. -/
theorem filter_isBz_tickEvents (s : State) : (tickEvents s).filter isBz = (bzNext s.buzzer).2 := by
  have hrow : (rowEvents s).filter isBz = [] :=
    List.filter_eq_nil_iff.2 fun e he => by rw [rowEvents_isBz he]; exact Bool.false_ne_true
  have hbuzzer : (bzNext s.buzzer).2.filter isBz = (bzNext s.buzzer).2 := by
    rcases bzNext_events s.buzzer with h | h <;> rw [h] <;> rfl
  simp [tickEvents, hrow, hbuzzer, isBz]

/-- A state that is on the timeline of a pattern, `t` ticks after its REQBUZZ left the `BZ` events `bz`. -/
structure OnTimeline (freq n : Byte) (bz : List Event) (t : Nat) (s : State) : Prop where
  between : Between s
  buzzer : s.buzzer = timeline freq n t
  tone : s.lines.bzOn = (s.buzzer.phase == .sounding)
  events : s.outTrace.filter isBz = bz ++ timelineEvents freq n t

section OnTimeline
variable {freq n : Byte} {bz : List Event} {t : Nat} {s : State}

/-- A pattern begins on its timeline. -/
theorem onTimeline_reqbuzz (hs : Between s) :
    OnTimeline freq n ((reqbuzzOp freq n s).outTrace.filter isBz) 0 (reqbuzzOp freq n s) where
  between := between_effect (i := .reqbuzz freq n) rfl hs
  buzzer := (timeline_of_stage (j := 0) .firstPulse (Nat.le_max_right _ _) (by decide) rfl).symm
  tone := rfl
  events := (List.append_nil _).symm

/-- DISPATCH goes one tick along the timeline. -/
theorem OnTimeline.dispatch (h : OnTimeline freq n bz t s) : OnTimeline freq n bz (t + 1) (dispatchOp s) := by
  have htick : bzNext s.buzzer = (timeline freq n (t + 1), bzEventsAt freq n (t + 1)) := by
    rw [h.buzzer]
    exact tickFollows freq n t
  exact {
    between := between_effect (i := .dispatch) rfl h.between
    buzzer := by rw [dispatchOp_eq, htick]
    tone := by rw [dispatchOp_eq, foldl_tickEvents_bzOn, bzNext_tone h.tone]
    events := by
      rw [dispatchOp_eq, List.filter_append, filter_isBz_tickEvents, h.events, htick, timelineEvents_succ,
        List.append_assoc] }

/-- An operation that leaves the pattern alone and is no tick emits nothing and keeps the buzzer registers. -/
theorem effect_of_noTick {i : Instr} (hkeeps : keepsPattern i = true) (hstim : i.isStimulus = true)
    (hi : i ≠ .dispatch) (s : State) : Emits [] s (effect i s) ∧ (effect i s).buzzer = s.buzzer := by
  have hnone : eventsOf i s = [] := by
    cases i with
    | dispatch => exact absurd rfl hi
    | reqbuzz => cases hkeeps
    | schtick | bzadv | rowadv | iack => cases hstim
    | _ => rfl
  have hreset : i ≠ .reset := by
    rintro rfl
    cases hkeeps
  refine ⟨hnone ▸ effect_emits hreset s, ?_⟩
  cases buzzerChange_effect i s with
  | requested => cases hkeeps
  | ticked _ hticks =>
    rcases hticks with rfl | rfl
    · exact absurd rfl hi
    · cases hstim
  | cleared => exact absurd rfl hreset
  | kept _ hb => exact hb

/-- Every operation but REQBUZZ and RESET goes as far along the timeline as it has ticks. -/
theorem OnTimeline.exec {i : Instr} {s' : State} (h : OnTimeline freq n bz t s) (hkeeps : keepsPattern i = true)
    (hexec : exec i s = .next s') : OnTimeline freq n bz (t + ticksIn [i]) s' := by
  have hstim := isStimulus_of_exec h.between hexec
  obtain ⟨-, -, rfl⟩ := exec_next_iff.1 hexec
  by_cases hi : i = .dispatch
  · subst hi
    exact h.dispatch
  · obtain ⟨⟨htrace, hlines⟩, hbuzzer⟩ := effect_of_noTick hkeeps hstim hi s
    have hticks : ticksIn [i] = 0 := List.count_eq_zero.2 fun hmem => hi (List.mem_singleton.1 hmem).symm
    rw [hticks]
    exact {
      between := between_effect hstim h.between
      buzzer := hbuzzer.trans h.buzzer
      tone := by rw [hlines, hbuzzer]; exact h.tone
      events := by rw [htrace, List.append_nil]; exact h.events }

theorem OnTimeline.run {is : List Instr} {s' : State} (h : OnTimeline freq n bz t s)
    (hkeeps : ∀ i ∈ is, keepsPattern i = true) (hrun : runInstrs is s = .next s') :
    OnTimeline freq n bz (t + ticksIn is) s' := by
  induction is generalizing s t with
  | nil =>
    cases hrun
    exact h
  | cons i is ih =>
    obtain ⟨u, hu, hrun⟩ := runInstrs_cons_next_iff.1 hrun
    obtain ⟨hi, his⟩ := List.forall_mem_cons.1 hkeeps
    rw [ticksIn_cons, ← Nat.add_assoc]
    exact ih (h.exec hi hu) his hrun

/-- After a REQBUZZ and operations that leave its pattern alone the state is on the timeline. -/
theorem onTimeline_of_run {is : List Instr} {s₀ s₁ : State} (hs : Between s)
    (hreq : Machine.exec (.reqbuzz freq n) s = .next s₀) (hkeeps : ∀ i ∈ is, keepsPattern i = true)
    (hrun : runInstrs is s₀ = .next s₁) : OnTimeline freq n (s₀.outTrace.filter isBz) (ticksIn is) s₁ := by
  obtain ⟨-, -, rfl⟩ := exec_next_iff.1 hreq
  have hend := (onTimeline_reqbuzz hs).run hkeeps hrun
  rwa [Nat.zero_add] at hend

end OnTimeline

/-- Settles O29: REQBUZZ begins on the timeline, each operation goes along it, and the state is on it at the end. -/
theorem theBuzzerFollowsItsTimeline : Obligations.TheBuzzerFollowsItsTimeline := by
  intro s s0 s1 freq rpt is hs hreq hkeeps hrun
  have h := onTimeline_of_run hs hreq hkeeps hrun
  exact ⟨h.buzzer, h.tone, h.events⟩

/-! ### The repeat target 0 (rule R138) -/

/-- The target itself shows in `bz_rpt_tgt` only: the timeline depends on it through the number of units. -/
theorem timeline_of_unitsOf_eq {m n : Byte} (h : unitsOf m.toNat = unitsOf n.toNat) (freq : Byte) (t : Nat) :
    timeline freq m t = { timeline freq n t with rptTgt := m } := by
  simp only [timeline, h]
  split_ifs <;> rfl

/-- The sequencer is Idle exactly when the pattern has ended. -/
theorem timeline_phase_idle_iff {freq n : Byte} {t : Nat} :
    (timeline freq n t).phase = .idle ↔ 2600 * unitsOf n.toNat ≤ t := by
  constructor
  · intro hidle
    by_contra hmore
    obtain ⟨st, e, hplace, he⟩ := exists_stage (u := t % 2600) (Nat.mod_lt _ (by decide))
    rw [timeline_of_stage (j := t / 2600) st (by omega) he (by rw [← hplace, Nat.div_add_mod])] at hidle
    cases st <;> cases hidle
  · intro hended
    rw [timeline_of_ended hended]

/-- Settles O30: both targets make one unit, so the two timelines differ in the target only. -/
theorem repeatTargetZeroPlaysOneUnit : Obligations.RepeatTargetZeroPlaysOneUnit := by
  intro s s0 s1 r0 r1 freq is hs hzero hone hkeeps hrunZero hrunOne
  have hbuzzer := (onTimeline_of_run hs hzero hkeeps hrunZero).buzzer
  have hbuzzerOne := (onTimeline_of_run hs hone hkeeps hrunOne).buzzer
  rw [hbuzzer, hbuzzerOne]
  refine ⟨timeline_of_unitsOf_eq (m := 0#8) (n := 1#8) rfl freq _, timeline_phase_idle_iff, fun hended => ?_⟩
  rw [timeline_of_ended hended]
  rfl

end Sys2Proof.Proofs
end

section
/-! PROOFS. The scheduler's rules (44_scheduler_tick_invoker.md). SCHTICK is one event that writes no line, and the
trace has one of them, and one IACK, for each DISPATCH. -/

namespace Sys2Proof.Proofs

open Sys2Proof.Machine Sys2Proof.Safety

/-- The call of the scheduler writes no output line, so all it leaves is its event (rule R146). -/
theorem schtickOp_eq (s : State) : schtickOp s = { s with outTrace := s.outTrace ++ [.sched] } := rfl

/-- Settles O23: SCHTICK is enabled at its code, and its effect is the event alone. -/
theorem schtickOnlyCallsTheScheduler : Obligations.SchtickOnlyCallsTheScheduler := by
  intro s h
  rw [exec_micro (i := .schtick) rfl h, effect, schtickOp_eq]

/-- Settles O57: every stimulus operation keeps the trace's account, since only a tick emits SCHED and IACK, one of
each, and the lines are written by the events that the trace gains. -/
theorem everyStepKeepsTheTraceAccount : Obligations.EveryStepKeepsTheTraceAccount := by
  intro s t hb hs h
  exact step_keeps (fun _ _ hs => hs) (fun _ _ hi hs => traceOk_effect hi hs) hb hs h

end Sys2Proof.Proofs
end

section
/-! PROOFS. The main context's rules (45_host_access.md). What a byte of the FrameBuffer shows, read and written column
by column; everything a HOST operation can do, said once with one case for each of the rule's mutators; and the
interrupt mask. -/

namespace Sys2Proof.Proofs

open Sys2Proof.Machine Sys2Proof.Safety

/-! ### FBWR and FBRD (rules R151, R152) -/

theorem exec_fbwr_of_inside {s : State} {addr : BitVec 16} (h : ¬ InterruptWaits s)
    (haddr : addr.toNat < fbBytes s.params.toRawParams) (data : Byte) :
    exec (.fbwr addr data) s = .next (respond [respOK] (memWrite addr.toNat data s)) := by
  rw [exec_of_enabled rfl (enabled_of_host rfl h), effect, fbwrOp_of_inside (inFrameBuffer_iff.2 haddr)]

/-- A write sets the columns whose byte has its address (20_memory.md rule R43), and no others. -/
theorem pixel_memWrite_address {s : State} {plane y c : Nat} (a : Nat) (v : Byte) (hy : y < s.params.maxY)
    (hc : c < s.params.sizeX) :
    pixel (memWrite a v s) plane y c =
      if fbAddr s.params.toRawParams plane y (c / 8) = a then v.getLsbD (c % 8) else pixel s plane y c := by
  split
  next h => rw [← h, pixel_memWrite v hy (byteIndex_lt hc) hy hc, if_pos ⟨rfl, rfl, rfl⟩]
  next h => rw [pixel, memWrite_params, memRead_memWrite_other s v h, pixel]

/-- Settles O35: FBWR is enabled, and its effect is the write of one byte. -/
theorem fbwrWritesTheColumnsOfItsByte : Obligations.FbwrWritesTheColumnsOfItsByte := by
  intro s addr data h haddr
  exact ⟨_, exec_fbwr_of_inside h haddr data, rfl, fun a ha => memRead_memWrite_other s data ha,
    fun _ _ _ _ hy hc => pixel_memWrite_address addr.toNat data hy hc⟩

/-- Bit `j` of a byte is column `8*k + j` of the byte's row, or padding, which reads as 0 (20_memory.md rules R43,
R46). -/
theorem getLsbD_memRead (s : State) (a : Nat) {j : Nat} (hj : j < 8) :
    (memRead s a).getLsbD j =
      (decide (8 * byteOf s.params.toRawParams a + j < s.params.sizeX) &&
        pixel s (planeOf s.params.toRawParams a) (rowOf s.params.toRawParams a)
          (8 * byteOf s.params.toRawParams a + j)) := by
  have hbyte : (8 * byteOf s.params.toRawParams a + j) / 8 = byteOf s.params.toRawParams a := by omega
  have hbit : (8 * byteOf s.params.toRawParams a + j) % 8 = j := by omega
  rw [pixel, hbyte, hbit, fbAddr_inverse, memRead, BitVec.getLsbD_and, columnMask_getLsbD, decide_eq_true hj,
    Bool.true_and, byteOf, Bool.and_left_comm, Bool.and_self]

/-- Settles O36: the byte that FBRD answers is `MemRead`'s. -/
theorem fbrdAnswersTheColumnsOfItsByte : Obligations.FbrdAnswersTheColumnsOfItsByte := by
  intro s addr h haddr
  exact ⟨memRead s addr.toNat, exec_fbrd_of_inside (enabled_of_host rfl h) haddr,
    fun _ hj => getLsbD_memRead s addr.toNat hj⟩

/-! ### The HOST's mutators (rule R157) -/

/-- What a HOST operation can do: each of the rule's mutators writes its own registers and the response; every other
answer is a response alone. -/
inductive HostChange (s : State) : Instr → State → Prop
  /-- CONFIG: the ClockPlan and the timer's counters. -/
  | configured (osc : Osc) (fsel : Byte) (plan : ClockPlan) (valid : Bool) (cnt : BitVec 16) (pcnt : BitVec 8)
      (resp : List Byte) :
      HostChange s (.config osc fsel)
        { s with plan := plan, planValid := valid, timer := { s.timer with timCnt := cnt, timPcnt := pcnt },
                 resp := resp }
  /-- REQBUZZ: the BuzzerState, and the tone with its event. -/
  | requested (freq rpt : Byte) (buzzer : BuzzerState) (on : Bool) (trace : List Event) (resp : List Byte) :
      HostChange s (.reqbuzz freq rpt)
        { s with buzzer := buzzer, lines := { s.lines with bzOn := on }, outTrace := trace, resp := resp }
  /-- FBWR: the FrameBuffer. -/
  | written (addr : BitVec 16) (data : Byte) (fb : Memory) (resp : List Byte) :
      HostChange s (.fbwr addr data) { s with fb := fb, resp := resp }
  /-- IMASK and IUNMASK: `int_mask`. -/
  | masked (i : Instr) (masks : i = .imask ∨ i = .iunmask) (mask : Bool) (resp : List Byte) :
      HostChange s i { s with intMask := mask, resp := resp }
  | answered (i : Instr) (resp : List Byte) : HostChange s i { s with resp := resp }

theorem hostChange_effect {i : Instr} (hi : agentOf i = .host) (s : State) : HostChange s i (effect i s) := by
  cases i with
  | config osc fsel =>
    rw [effect]
    cases hf : supportedFsel fsel with
    | true =>
      rw [configOp_of_supported hf]
      exact .configured ..
    | false =>
      rw [configOp_of_unsupported hf]
      exact .answered ..
  | reqbuzz => exact .requested ..
  | fbwr addr data =>
    rw [effect]
    cases h : inFrameBuffer s.params.toRawParams addr with
    | true =>
      rw [fbwrOp_of_inside h]
      exact .written ..
    | false =>
      rw [fbwrOp_of_outside h]
      exact .answered ..
  | imask => exact .masked _ (.inl rfl) ..
  | iunmask => exact .masked _ (.inr rfl) ..
  | fbrd | rdsr =>
    simp only [effect, fbrdOp, rdsrOp]
    split <;> exact .answered ..
  | osc | dispatch | reset | schtick | bzadv | rowadv | iack => cases hi

/-- Of the HOST's operations only IMASK and IUNMASK write the mask. -/
theorem HostChange.intMask {s t : State} {i : Instr} (h : HostChange s i t) (himask : i ≠ .imask)
    (hiunmask : i ≠ .iunmask) : t.intMask = s.intMask := by
  cases h with
  | masked _ hi =>
    rcases hi with rfl | rfl
    · exact absurd rfl himask
    · exact absurd rfl hiunmask
  | configured | requested | written | answered => rfl

/-- Settles O47, mutator by mutator: none writes what no HOST operation writes, and each is named in the one clause
whose registers it writes. -/
theorem hostOperationsWriteOnlyWhatTheyMay : Obligations.HostOperationsWriteOnlyWhatTheyMay := by
  intro i s t hi h
  obtain ⟨-, -, ht⟩ := exec_next_iff.1 h
  have hchange : HostChange s i t := ht ▸ hostChange_effect hi s
  have hmask := hchange.intMask
  cases hchange with
  | configured osc fsel =>
    exact ⟨rfl, rfl, rfl, rfl, rfl, rfl, rfl, rfl, fun hne => absurd rfl (hne osc fsel), fun _ => ⟨rfl, rfl, rfl⟩,
      fun _ => rfl, hmask⟩
  | requested freq rpt =>
    exact ⟨rfl, rfl, rfl, rfl, rfl, rfl, rfl, rfl, fun _ => ⟨rfl, rfl, rfl⟩, fun hne => absurd rfl (hne freq rpt),
      fun _ => rfl, hmask⟩
  | written addr data =>
    exact ⟨rfl, rfl, rfl, rfl, rfl, rfl, rfl, rfl, fun _ => ⟨rfl, rfl, rfl⟩, fun _ => ⟨rfl, rfl, rfl⟩,
      fun hne => absurd rfl (hne addr data), hmask⟩
  | masked | answered =>
    exact ⟨rfl, rfl, rfl, rfl, rfl, rfl, rfl, rfl, fun _ => ⟨rfl, rfl, rfl⟩, fun _ => ⟨rfl, rfl, rfl⟩,
      fun _ => rfl, hmask⟩

/-! ### The interrupt mask (rules R153, R154) -/

/-- Only IMASK, IUNMASK and RESET write the mask. -/
theorem effect_intMask {i : Instr} (himask : i ≠ .imask) (hiunmask : i ≠ .iunmask) (hreset : i ≠ .reset)
    (s : State) : (effect i s).intMask = s.intMask := by
  cases i with
  | osc n =>
    obtain ⟨_, e⟩ := oscOp_frame n s
    rw [effect, e]
  | dispatch => rw [effect, dispatchOp_eq]
  | bzadv => rw [effect, bzadvOp_eq]
  | rowadv => rw [effect, rowadvOp_eq]
  | schtick | iack => rfl
  | reset => exact absurd rfl hreset
  | _ => exact (hostChange_effect rfl s).intMask himask hiunmask

/-- Settles O48: DISPATCH runs only unmasked (41_periodic_interrupt_dispatcher.md rule R102) and keeps the mask. -/
theorem onlyTheMainContextWritesTheMask : Obligations.OnlyTheMainContextWritesTheMask := by
  refine ⟨fun i s t h himask hiunmask hreset => ?_, fun s t h => ?_⟩
  · obtain ⟨-, -, rfl⟩ := exec_next_iff.1 h
    exact effect_intMask himask hiunmask hreset s
  · obtain ⟨-, henabled, rfl⟩ := exec_next_iff.1 h
    obtain ⟨-, hmask⟩ := deliverable_eq_true_iff.1 henabled
    rw [effect_intMask (by decide) (by decide) (by decide), hmask]

theorem not_interruptWaits_of_masked {s : State} (h : s.intMask = true) : ¬ InterruptWaits s :=
  fun hw => Bool.noConfusion (h.symm.trans hw.2)

theorem not_interruptWaits_of_noPending {s : State} (h : s.timer.irqPending = false) : ¬ InterruptWaits s :=
  fun hw => Bool.noConfusion (h.symm.trans hw.1)

theorem exec_imask {s : State} (h : ¬ InterruptWaits s) :
    exec .imask s = .next { s with intMask := true, resp := [] } :=
  exec_of_enabled (i := .imask) rfl (enabled_of_host rfl h)

theorem exec_iunmask {s : State} (h : ¬ InterruptWaits s) :
    exec .iunmask s = .next { s with intMask := false, resp := [] } :=
  exec_of_enabled (i := .iunmask) rfl (enabled_of_host rfl h)

/-- While a deliverable interrupt waits the main context is held off (30_encoding.md rule R80). -/
theorem exec_host_of_interruptWaits {i : Instr} {s : State} (hwf : i.wf = true) (hi : agentOf i = .host)
    (h : InterruptWaits s) : exec i s = .refused .notEnabled :=
  exec_of_not_enabled hwf (Bool.eq_false_iff.2 fun henabled => (enabled_host_iff hi).1 henabled h)

/-- DISPATCH writes `irq_pending` and nothing else of the timer. -/
theorem dispatchOp_timer (s : State) : (dispatchOp s).timer = { s.timer with irqPending := false } := by
  rw [dispatchOp_eq]

/-- Settles O40: unmasking makes the pending interrupt deliverable, and DISPATCH leaves none pending. -/
theorem imaskAndIunmaskWriteTheMask : Obligations.ImaskAndIunmaskWriteTheMask := by
  refine ⟨fun s h => ⟨exec_imask h, exec_iunmask h⟩, fun s hpending hmask => ?_⟩
  have hwaits : InterruptWaits { s with intMask := false, resp := [] } := ⟨hpending, rfl⟩
  have hserved := dispatchOp_timer { s with intMask := false, resp := [] }
  exact ⟨_, _, exec_iunmask (not_interruptWaits_of_masked hmask), exec_host_of_interruptWaits rfl rfl hwaits,
    exec_dispatch hwaits, hserved, exec_imask (not_interruptWaits_of_noPending (by rw [hserved]))⟩

end Sys2Proof.Proofs
end

section
/-! PROOFS. The rules of errors and interrupts (60_exceptions.md). An error answer is a response alone: BadAddress,
BadRegister, and every other status code but OK; what sets `irq_pending` and what clears it; and what a DISPATCH leaves
as it was. -/

namespace Sys2Proof.Proofs

open Sys2Proof.Machine Sys2Proof.Safety

/-! ### BadAddress and BadRegister (rules R168, R169) -/

theorem fbrdOp_of_outside {s : State} {addr : BitVec 16} (h : inFrameBuffer s.params.toRawParams addr = false) :
    fbrdOp addr s = respond [respBadAddress, 0x00#8] s := by
  rw [fbrdOp, h]
  rfl

/-- Settles O37: both operations are enabled, and outside the FrameBuffer the effect of each is a response alone. -/
theorem addressesOutsideTheFrameBufferAnswerBadAddress :
    Obligations.AddressesOutsideTheFrameBufferAnswerBadAddress := by
  intro s addr h haddr
  have houtside : inFrameBuffer s.params.toRawParams addr = false := decide_eq_false (Nat.not_lt.2 haddr)
  refine ⟨fun data => ?_, ?_⟩
  · rw [exec_of_enabled rfl (enabled_of_host rfl h), effect, fbwrOp_of_outside houtside]
    rfl
  · rw [exec_of_enabled rfl (enabled_of_host rfl h), effect, fbrdOp_of_outside houtside]
    rfl

/-- No status register has a number from 0x0E on (10_state.md rule R37). -/
theorem statusReg_of_reserved {n : Byte} (h : 0x0E ≤ n.toNat) : statusReg n = none := by
  unfold statusReg
  split
  case h_15 => rfl
  all_goals omega

theorem rdsrOp_of_reserved {n : Byte} (h : 0x0E ≤ n.toNat) (s : State) :
    rdsrOp n s = respond [respBadRegister, 0x00#8] s := by
  rw [rdsrOp, statusReg_of_reserved h]

/-- Settles O42: RDSR is enabled, and of a reserved number its effect is a response alone. -/
theorem reservedStatusNumbersAnswerBadRegister : Obligations.ReservedStatusNumbersAnswerBadRegister := by
  intro s n h hn
  rw [exec_of_enabled rfl (enabled_of_host rfl h), effect, rdsrOp_of_reserved hn]
  rfl

/-! ### Error answers (rule R166) -/

/-- How a HOST operation answers (30_encoding.md rule R71): with no status code, with OK, or by a response alone, which
is the one case left to an error. -/
inductive HostAnswer (s t : State) : Prop
  | silent (resp : t.resp = [])
  | ok (data : List Byte) (resp : t.resp = respOK :: data)
  | responseAlone (unchanged : t = { s with resp := t.resp })

theorem hostAnswer_effect {i : Instr} (hi : agentOf i = .host) (s : State) : HostAnswer s (effect i s) := by
  cases i with
  | config osc fsel =>
    rw [effect]
    cases hf : supportedFsel fsel with
    | true =>
      rw [configOp_of_supported hf]
      exact .ok [] rfl
    | false =>
      rw [configOp_of_unsupported hf]
      exact .responseAlone rfl
  | fbwr addr data =>
    rw [effect]
    cases h : inFrameBuffer s.params.toRawParams addr with
    | true =>
      rw [fbwrOp_of_inside h]
      exact .ok [] rfl
    | false =>
      rw [fbwrOp_of_outside h]
      exact .responseAlone rfl
  | fbrd addr =>
    rw [effect]
    cases h : inFrameBuffer s.params.toRawParams addr with
    | true =>
      rw [fbrdOp_of_inside h]
      exact .responseAlone rfl
    | false =>
      rw [fbrdOp_of_outside h]
      exact .responseAlone rfl
  | rdsr n =>
    rw [effect, rdsrOp]
    split <;> exact .responseAlone rfl
  | reqbuzz | imask | iunmask => exact .silent rfl
  | osc | dispatch | reset | schtick | bzadv | rowadv | iack => cases hi

/-- Settles O46: of the answers of a HOST operation only a response alone can carry a status code other than OK. -/
theorem anErrorAnswerChangesNoState : Obligations.AnErrorAnswerChangesNoState := by
  intro i s t status data hi h hresp hstatus
  obtain ⟨-, -, ht⟩ := exec_next_iff.1 h
  have hanswer : HostAnswer s t := ht ▸ hostAnswer_effect hi s
  cases hanswer with
  | silent hnone => cases hnone.symm.trans hresp
  | ok _ hok =>
    cases hok.symm.trans hresp
    exact absurd rfl hstatus
  | responseAlone hunchanged => exact hunchanged

/-! ### The pending interrupt (rule R172) -/

/-- A pending interrupt stays pending over a cycle: an overflow sets the flag, and nothing else writes it. -/
theorem timerCycle_irqPending (psc : BitVec 8) (reload : BitVec 16) {t : TimerRegs} (h : t.irqPending = true) :
    (timerCycle psc reload t).irqPending = true := by
  unfold timerCycle
  split
  · split
    · rfl
    · exact h
  · exact h

theorem timerCycles_irqPending (psc : BitVec 8) (reload : BitVec 16) (n : Nat) {t : TimerRegs}
    (h : t.irqPending = true) : (timerCycles psc reload n t).irqPending = true := by
  induction n generalizing t with
  | zero => exact h
  | succ n ih => exact ih (timerCycle_irqPending psc reload h)

theorem TimerChange.osc_of_irqPending {s t : State} {i : Instr} (h : TimerChange s t i)
    (hs : s.timer.irqPending = false) (ht : t.timer.irqPending = true) : ∃ n, i = .osc n := by
  cases h with
  | ran n => exact ⟨n, rfl⟩
  | acknowledged _ _ _ _ htimer | cleared _ _ htimer =>
    rw [htimer] at ht
    cases ht
  | configured _ _ _ _ _ htimer | kept _ _ _ htimer =>
    rw [htimer] at ht
    cases hs.symm.trans ht

theorem TimerChange.acknowledge_or_reset {s t : State} {i : Instr} (h : TimerChange s t i)
    (hs : s.timer.irqPending = true) (ht : t.timer.irqPending = false) : i = .iack ∨ i = .dispatch ∨ i = .reset := by
  cases h with
  | acknowledged _ hacks => exact hacks.symm.imp_right .inl
  | cleared => exact .inr (.inr rfl)
  | ran n _ _ _ htimer =>
    rw [htimer, timerCycles_irqPending _ _ _ hs] at ht
    cases ht
  | configured _ _ _ _ _ htimer | kept _ _ _ htimer =>
    rw [htimer] at ht
    cases hs.symm.trans ht

/-- Settles O49: read off from what an operation can do to the timer. -/
theorem pendingIsSetByOscAndClearedByIack : Obligations.PendingIsSetByOscAndClearedByIack := by
  intro i s t h
  obtain ⟨-, -, ht⟩ := exec_next_iff.1 h
  have hchange : TimerChange s t i := ht ▸ timerChange_effect i s
  exact ⟨hchange.osc_of_irqPending, hchange.acknowledge_or_reset⟩

/-! ### What a DISPATCH leaves (rules R177, R180) -/

/-- Settles O21: the record update that DISPATCH is names none of the main context's registers, a tick of the buzzer
keeps the two that REQBUZZ gave it, and DISPATCH runs only unmasked. -/
theorem dispatchLeavesTheMainContextAlone : Obligations.DispatchLeavesTheMainContextAlone := by
  intro s h
  refine ⟨_, exec_dispatch h, ?_⟩
  obtain ⟨-, hmask⟩ := h
  obtain ⟨hfreq, htarget⟩ := bzNext_keeps s.buzzer
  rw [dispatchOp_eq]
  exact ⟨rfl, rfl, rfl, rfl, fun _ => rfl, hmask, rfl, hfreq, htarget, rfl, rfl, rfl, rfl⟩

end Sys2Proof.Proofs
end

section
/-! PROOFS. The rules of reset and of the boot order (70_reset_and_hazards.md). RESET leaves the interrupt masked, so
CONFIG and IUNMASK are not held off after it. -/

namespace Sys2Proof.Proofs

open Sys2Proof.Machine Sys2Proof.Safety

/-! ### BOOT (rules R199, R200) -/

/-- Settles O44: RESET is enabled in every state, and the mask that it sets stays until IUNMASK, so that each of the
two HOST operations is enabled where BOOT reaches it. -/
theorem bootConfiguresAndUnmasks : Obligations.BootConfiguresAndUnmasks := by
  intro s osc fsel hf
  have hmasked : ¬ InterruptWaits (resetOp s) := not_interruptWaits_of_masked rfl
  exact ⟨_, rfl, rfl,
    runInstrs_cons_next_iff.2 ⟨_, exec_reset s,
      runInstrs_cons_next_iff.2 ⟨_, exec_config_of_supported hmasked osc hf,
        runInstrs_cons_next_iff.2 ⟨_, exec_iunmask (not_interruptWaits_of_masked rfl), rfl⟩⟩⟩⟩

end Sys2Proof.Proofs
end
